-- ==== Sys2Proof/Word.lean ====
section
/-! DEFINITION. The word type of the core: an unsigned 32-bit number, and the bytes a host may hold one as. -/

namespace Sys2Proof

/-- A word (rule R8): an unsigned integer below `2^32`, bit 0 the least significant. `add32`, `sub32` and `xor32` of
rule R9 are `+`, `-` and `^^^` on this type, each of which works modulo `2^32` and raises nothing. -/
abbrev Word := BitVec 32

/-- A byte. The core never handles one (rule R51); only the host-side convention of rule R53(b) does. -/
abbrev Byte := BitVec 8

end Sys2Proof
end

