-- ==== Sys2Proof/Config.lean ====
section
/-! DEFINITION. What is fixed for one core: the parameters of rule R5, the open parameters of rule R6, and the values
the spec leaves free. An `opaque` constant has no body, so no proof can learn anything of its value. -/

namespace Sys2Proof.Config

/-- `P32` of rules R5 and R31: the first magic constant, wired. -/
def p32 : Word := 0xB7E15163#32

/-- `Q32` of rules R5 and R31: the second magic constant, wired. -/
def q32 : Word := 0x9E3779B9#32

/-- `ROT_S` of rule R5: the fixed rotation amount of the `S` half of a mixing step. -/
def rotS : Nat := 3

/-- `LAT_EXPAND - 1`: rule R6 says only that the latency is an integer of at least 1 (log entry 4). -/
opaque latExpandExtra : Nat

/-- `LAT_ENCRYPT - 1` (rule R6, log entry 4). -/
opaque latEncryptExtra : Nat

/-- `LAT_DECRYPT - 1` (rule R6, log entry 4). -/
opaque latDecryptExtra : Nat

/-- `LAT_EXPAND` of rule R6: clock edges from ACCEPT to COMPLETE of an `EXPAND`, at least 1, the same for all operands
(rule R180). -/
def latExpand : Nat := latExpandExtra + 1

/-- `LAT_ENCRYPT` of rule R6. -/
def latEncrypt : Nat := latEncryptExtra + 1

/-- `LAT_DECRYPT` of rule R6. -/
def latDecrypt : Nat := latDecryptExtra + 1

/-- How many micro-steps the implementation does at a clock edge of a running command, given the operation code and
the number of edges left before COMPLETE. Rules R29 and R180 leave it unspecified (log entry 5). -/
opaque microStepsAtEdge : BitVec 2 → Nat → Nat

/-- A free word: the value of a data register that the spec leaves at "any value" (U4, U6, U7 of
93_implementation_defined.md). Each argument is a draw of its own; `State.draws` says how many events have drawn. -/
opaque freeWord : Nat → Word

/-- A free operation code: what `OPR` holds after a reset (rules R34, R170, log entry 3). -/
opaque freeCode : Nat → BitVec 2

end Sys2Proof.Config
end

