-- ==== Sys2Proof/Syntax.lean ====
section
/-! DEFINITION. The commands and operations of the core: one constructor of `Instr` for each row of
spec/opcode_table.json, with the operands that are driven beside the selector (rule R70). -/

namespace Sys2Proof

/-- A 128-bit key: the words of the `KEY[0..3]` port (rule R73(a)). -/
abbrev Key := Vector Word 4

/-- A 64-bit block: word 0 is the `A` side, word 1 the `B` side (rule R73(b)). -/
abbrev Block := Vector Word 2

/-- A round-key schedule: exactly 26 words (rule R22). -/
abbrev Schedule := Vector Word 26

/-- The three operations of the command port (rule R71). -/
inductive Op where
  | expand
  | encrypt
  | decrypt
  deriving DecidableEq, Repr

/-- One operation as the host presents it, with its operands (rules R3, R70 to R75). The three commands and the
reserved code carry the whole command port, since ACCEPT samples all of it whatever the operation (rules R24, R55). -/
inductive Instr where
  /-- `EXPAND`, `OP = 00` (rule R110). `blockIn` is latched and never read (rule R24). -/
  | expand (key : Key) (blockIn : Block)
  /-- `ENCRYPT`, `OP = 01` (rule R130). -/
  | encrypt (key : Key) (blockIn : Block)
  /-- `DECRYPT`, `OP = 10` (rule R140). -/
  | decrypt (key : Key) (blockIn : Block)
  /-- `ROTL`, `DIR = 0` (rule R92). -/
  | rotl (v : Word) (amount : BitVec 8)
  /-- `ROTR`, `DIR = 1` (rule R93). -/
  | rotr (v : Word) (amount : BitVec 8)
  /-- The reserved `OP = 11` (rule R75): a row of the table, with no behaviour at an ACCEPT opportunity. -/
  | reservedOp3 (key : Key) (blockIn : Block)
  deriving DecidableEq, Repr

/-- The two formats of rule R70. -/
inductive Format where
  | cmd
  | rot
  deriving DecidableEq, Repr

/-- The encoding of one operation: the tuple the host drives (rule R77), as a row of wires. `cmd` is the 194-bit tuple
`(OP, KEY, BLOCK_IN)` of rule R55; `rot` is the 41-bit tuple `(DIR, ROT_V, ROT_AMT)`. -/
inductive PortWord where
  | cmd (w : BitVec 194)
  | rot (w : BitVec 41)
  deriving DecidableEq, Repr

end Sys2Proof
end

