-- ==== Sys2Proof/WellFormed.lean ====
section
/-! DEFINITION. Which instructions a conforming host presents. Operand shapes are enforced by their types, as rule R73
says of the core, so the one check is that the operation code is not the reserved one (rule R75). -/

namespace Sys2Proof

/-- A conforming host never presents `OP = 11` (rule R75); every operand of the other five is legal (rule R73). -/
def Instr.wellFormed : Instr → Bool
  | .expand _ _ => true
  | .encrypt _ _ => true
  | .decrypt _ _ => true
  | .rotl _ _ => true
  | .rotr _ _ => true
  | .reservedOp3 _ _ => false

end Sys2Proof
end

