-- ==== Sys2Proof/Decode.lean ====
section
/-! DEFINITION. The decoder (rules R70 to R76), total on every pattern of the wires of each format, and after it the
encoder, written from the same tables, with the flat buses of rule R27 as the way a word array is laid on wires. -/

namespace Sys2Proof

/-! ## Flat buses (rule R27) -/

/-- The number on a flat bus that carries the words of a list, the first word lowest. -/
def busNat : List Word → Nat
  | [] => 0
  | w :: ws => w.toNat + 2 ^ 32 * busNat ws

/-- The flat bus of a word array: word `j` on wires `32*j + 31 : 32*j` (rule R27). -/
def flatBus {n : Nat} (v : Vector Word n) : BitVec (32 * n) := BitVec.ofNat (32 * n) (busNat v.toList)

/-- `KEY_BUS` of rule R27. -/
def keyBus (k : Key) : BitVec 128 := flatBus k

/-- `BLOCK_BUS` of rule R27. -/
def blockBus (b : Block) : BitVec 64 := flatBus b

/-- `SCHED_BUS` of rule R27. -/
def schedBus (s : Schedule) : BitVec 832 := flatBus s

/-- Word `j` of a flat bus that starts at wire `base` of a wider row of wires. -/
def busWord {m : Nat} (w : BitVec m) (base j : Nat) : Word := w.extractLsb' (base + 32 * j) 32

/-! ## Decoding -/

/-- The operation that a value of `OP` selects; `11` selects none (rules R71, R75). -/
def Op.ofCode (op : BitVec 2) : Option Op :=
  if op = 0b00#2 then some .expand
  else if op = 0b01#2 then some .encrypt
  else if op = 0b10#2 then some .decrypt
  else none

/-- The value of `OP` that selects an operation (rule R71). -/
def Op.code : Op → BitVec 2
  | .expand => 0b00#2
  | .encrypt => 0b01#2
  | .decrypt => 0b10#2

/-- The instruction that a command tuple stands for (rules R71, R75). -/
def decodeCommand (op : BitVec 2) (key : Key) (blockIn : Block) : Instr :=
  match Op.ofCode op with
  | some .expand => .expand key blockIn
  | some .encrypt => .encrypt key blockIn
  | some .decrypt => .decrypt key blockIn
  | none => .reservedOp3 key blockIn

/-- The instruction that a rotator tuple stands for; both values of `DIR` are defined (rule R72). -/
def decodeRotator (dir : BitVec 1) (v : Word) (amount : BitVec 8) : Instr :=
  if dir = 0b0#1 then .rotl v amount else .rotr v amount

/-- The decoder: `OP` on wires 1:0, `KEY_BUS` on 129:2 and `BLOCK_BUS` on 193:130 of a command; `DIR` on wire 0,
`ROT_V` on 32:1 and `ROT_AMT` on 40:33 of a rotator operation. The order of the fields is rule R77's; that they stand
in one row of wires is the model's (log entry 8). -/
def decode : PortWord → Instr
  | .cmd w =>
    decodeCommand (w.extractLsb' 0 2) (Vector.ofFn fun j => busWord w 2 j) (Vector.ofFn fun j => busWord w 130 j)
  | .rot w => decodeRotator (w.extractLsb' 0 1) (w.extractLsb' 1 32) (w.extractLsb' 33 8)

/-- Why a number is the word of no operation. -/
inductive DecodeReject where
  /-- The number has a bit set above the last wire of the format. -/
  | beyondFormat (f : Format)
  deriving DecidableEq, Repr

/-- How many wires a format has: rule R55's 194, and `1 + 32 + 8` for the rotator. -/
def Format.width : Format → Nat
  | .cmd => 194
  | .rot => 41

/-- The row of wires that carries a number, or why there is none. -/
def PortWord.ofNat? (f : Format) (w : Nat) : Except DecodeReject PortWord :=
  if w < 2 ^ f.width then
    .ok (match f with
      | .cmd => .cmd (BitVec.ofNat 194 w)
      | .rot => .rot (BitVec.ofNat 41 w))
  else .error (.beyondFormat f)

/-- Decoding of a number in a format: total, and rejecting by name. -/
def decodeNat (f : Format) (w : Nat) : Except DecodeReject Instr :=
  (PortWord.ofNat? f w).map decode

/-- The format that a width names: the table gives `ROT` rows 1 bit (41 wires, 48 in whole bytes) and `CMD` rows 2
bits. One byte (8) could be either, and is read as `CMD` (log entry 9). -/
def formatOfBits (nbits : Nat) : Format :=
  if nbits = 1 ∨ nbits = 41 ∨ nbits = 48 then .rot else .cmd

/-- The instruction of a word numbered as spec/opcode_table.json numbers it: bit 0 is bit 0 of `OP` or `DIR`, operand
wires above the selector are 0 unless the number sets them. -/
def decodeTableWord (nbits w : Nat) : Option Instr :=
  match decodeNat (formatOfBits nbits) w with
  | .ok i => some i
  | .error _ => none

/-! ## Encoding -/

/-- The command tuple on its wires. -/
def commandWires (op : BitVec 2) (key : Key) (blockIn : Block) : BitVec 194 :=
  blockBus blockIn ++ keyBus key ++ op

/-- The rotator tuple on its wires. -/
def rotatorWires (dir : BitVec 1) (v : Word) (amount : BitVec 8) : BitVec 41 :=
  amount ++ v ++ dir

/-- The encoder (rules R71, R72, R77). -/
def encode : Instr → PortWord
  | .expand key blockIn => .cmd (commandWires 0b00#2 key blockIn)
  | .encrypt key blockIn => .cmd (commandWires 0b01#2 key blockIn)
  | .decrypt key blockIn => .cmd (commandWires 0b10#2 key blockIn)
  | .rotl v amount => .rot (rotatorWires 0b0#1 v amount)
  | .rotr v amount => .rot (rotatorWires 0b1#1 v amount)
  | .reservedOp3 key blockIn => .cmd (commandWires 0b11#2 key blockIn)

end Sys2Proof
end

