-- ==== Sys2Proof/Machine/State.lean ====
section
/-! DEFINITION. The state of one core (rule R20), the levels on the rotator's input ports, and the host's moves that
are still to come. Plain data throughout. -/

namespace Sys2Proof.Machine

/-- One micro-step of the fixed work list of rule R29. The index types keep every register index in range (rule R52).
`LOAD` and `COMPLETE` of that list are the two transitions of rule R35, not entries here. -/
inductive MicroStep where
  /-- `INIT(i)`: write `S[i]` (rule R112). -/
  | init (i : Fin 26)
  /-- `MIX(t)`: mixing step `t`, with cursors `t mod 26` and `t mod 4` (rules R115, R116). -/
  | mix (t : Fin 78)
  /-- `WHITEN` (rule R132). -/
  | whiten
  /-- `ROUND(i + 1)`: the index counts from 0, the spec's rounds from 1 (rule R133). -/
  | round (i : Fin 12)
  /-- `LOADBLK` (rule R142). -/
  | loadBlk
  /-- `UNROUND(i + 1)` (rule R143). -/
  | unround (i : Fin 12)
  /-- `UNWHITEN` (rule R144). -/
  | unwhiten
  deriving DecidableEq, Repr

/-- The data registers of rule R20: 34 words. -/
structure Regs where
  /-- `A`: mixing accumulator, then block word 0 (rule R21). -/
  a : Word
  /-- `B`: mixing accumulator, then block word 1 (rule R21). -/
  b : Word
  /-- `S[0..25]` (rule R22). -/
  s : Schedule
  /-- `K[0..3]`: the key scratch copy (rule R23). -/
  k : Key
  /-- `BLK[0..1]`: the latched block operand (rule R24). -/
  blk : Block
  deriving DecidableEq, Repr

/-- The sequencer of rules R20 and R29: how many clock edges are left before COMPLETE, and which micro-steps are still
to be done. Its encoding is the model's (log entry 19); the spec calls it not architectural. -/
structure Sequencer where
  edgesLeft : Nat
  todo : List MicroStep
  deriving DecidableEq, Repr

/-- The idle sequencer (rules R34, R170). -/
def Sequencer.idle : Sequencer := { edgesLeft := 0, todo := [] }

/-- The levels on all input ports at one rising edge of `CLK` (rule R25). The edge itself is `CLK`. -/
structure Pins where
  rst : Bool
  start : Bool
  op : BitVec 2
  key : Key
  blockIn : Block
  rotV : Word
  rotAmt : BitVec 8
  rotDir : BitVec 1
  deriving DecidableEq, Repr

/-- A block operand of a program line (rule R77): a literal, or a word of the previous command's `BLOCK_OUT`. -/
inductive BlockToken where
  | lit (w : Word)
  | out0
  | out1
  deriving DecidableEq, Repr

/-- What the host does next (log entry 6). The spec is read at both of its levels (rule R7): `line` and `lineOut` are transactions
(rules R36, R77), `edge` is one rising edge of the clock (rules R25, R35). -/
inductive HostMove where
  /-- One program line: wait for `BUSY = 0`, present the operation, wait for COMPLETE (rule R77). -/
  | line (w : PortWord)
  /-- A program line whose block operand may copy words of the previous `BLOCK_OUT` (`OUT0`, `OUT1` of rule R77). -/
  | lineOut (op : BitVec 2) (key : Key) (b0 b1 : BlockToken)
  /-- One rising edge of `CLK` with these levels on the input ports. -/
  | edge (p : Pins)
  deriving DecidableEq, Repr

/-- The state of one core (rule R20), and beside it what its environment holds. -/
structure State where
  /-- `A`, `B`, `S`, `K`, `BLK`. -/
  regs : Regs
  /-- `OPR`: the latched operation code (rule R24). -/
  opr : BitVec 2
  /-- `BUSY`: an accepted command has not completed (rule R28). -/
  busy : Bool
  /-- `BV`: `BLOCK_OUT` holds the result of the last completed command (rule R28). -/
  bv : Bool
  /-- `SV`: `SCHED_OUT` holds the result of the last completed command (rule R28). -/
  sv : Bool
  /-- The sequencer. -/
  seq : Sequencer
  /-- The level on `ROT_V` (rule R25): an input port, not a register of the core (log entry 14). -/
  rotV : Word
  /-- The level on `ROT_AMT` (rule R25). -/
  rotAmt : BitVec 8
  /-- The level on `ROT_DIR` (rule R25). -/
  rotDir : BitVec 1
  /-- The model's own field: the moves the host has still to make, first one first. -/
  host : List HostMove
  /-- The model's own field: how many events have drawn free values (log entry 3). -/
  draws : Nat
  deriving DecidableEq, Repr

/-- Why the machine stops with a fault: never. Rule R150 says that the set of exception causes is empty, so this type
has no constructor. -/
inductive Fault where
  deriving DecidableEq, Repr

/-- Why a step has no meaning. -/
inductive Refusal where
  /-- Raised by an arm of `exec` whose instruction has no meaning yet; safe. No arm raises it. -/
  | notModelled (mnemonic : String)
  /-- Raised by presenting `OP = 11` at an ACCEPT opportunity, which rule R75 gives no behaviour and tells a model to
  refuse (log entry 12); safe. -/
  | reservedOp
  /-- Raised by a program line that copies `OUT0` or `OUT1` while `BV = 0`, a read that rule R176 gives no value and U2
  tells a model to refuse (log entry 11); safe. -/
  | blockOutNotValid
  deriving DecidableEq, Repr

/-- The machine right after reset (rules R34, R171): the three flags 0 and the sequencer idle, as the spec states. The
spec gives the data registers and `OPR` no value; zero is the model's (log entry 1), as are the levels of the rotator's
inputs (log entry 2). No host move is placed. -/
def State.reset : State where
  regs := { a := 0, b := 0, s := Vector.replicate 26 0, k := Vector.replicate 4 0, blk := Vector.replicate 2 0 }
  opr := 0
  busy := false
  bv := false
  sv := false
  seq := Sequencer.idle
  rotV := 0
  rotAmt := 0
  rotDir := 0
  host := []
  draws := 0

end Sys2Proof.Machine
end

