-- ==== Sys2Proof/Machine/Rotate.lean ====
section
/-! DEFINITION. The ROTATOR (40_rotator.md): two pure functions, and the port that selects one. -/

namespace Sys2Proof.Machine

/-- `ROTL(v, amount)` in the arithmetic of rule R92, for any non-negative amount (rule R91 reduces it). -/
def rotl (v : Word) (amount : Nat) : Word :=
  let n := amount % 32
  if n = 0 then v
  else BitVec.ofNat 32 (v.toNat * 2 ^ n % 2 ^ 32 + v.toNat / 2 ^ (32 - n))

/-- `ROTR(v, amount)` in the arithmetic of rule R93. -/
def rotr (v : Word) (amount : Nat) : Word :=
  let n := amount % 32
  if n = 0 then v
  else BitVec.ofNat 32 (v.toNat / 2 ^ n + v.toNat % 2 ^ n * 2 ^ (32 - n))

/-- `ROT_Y` as a function of `ROT_DIR`, `ROT_V`, `ROT_AMT` (rules R72, R90): all eight bits of the amount enter, and
the reduction of rule R91 drops the upper three. -/
def rotator (dir : BitVec 1) (v : Word) (amount : BitVec 8) : Word :=
  if dir = 0b0#1 then rotl v amount.toNat else rotr v amount.toNat

end Sys2Proof.Machine
end

