-- ==== Sys2Proof/Machine/Operands.lean ====
section
/-! DEFINITION. Operands and ports: the rotation amount taken from a word, the output ports, the operands of a program
line, and the byte convention a host may use. -/

namespace Sys2Proof.Machine

/-- The amount an internal user of the rotator derives from a word: its low five bits (rules R73(c), R95). -/
def amountOf (x : Word) : Nat := (x.extractLsb' 0 5).toNat

/-! ## Output ports (rule R26) -/

/-- `BLOCK_OUT` while `BV = 1`: `A` and `B`. While `BV = 0` the port means nothing and no read is offered (rule R176,
U2, log entry 11). -/
def State.blockOut (s : State) : Option Block :=
  if s.bv then some #v[s.regs.a, s.regs.b] else none

/-- `SCHED_OUT` while `SV = 1`: `S`. While `SV = 0` no read is offered (rule R176, U3, log entry 11). -/
def State.schedOut (s : State) : Option Schedule :=
  if s.sv then some s.regs.s else none

/-- `ROT_Y`: the rotator's function of the present levels of its inputs, at every instant (rules R26, R90). -/
def State.rotY (s : State) : Word := rotator s.rotDir s.rotV s.rotAmt

/-- All that the host can observe of the core at any time (rule R33). -/
structure View where
  busy : Bool
  bv : Bool
  sv : Bool
  blockOut : Option Block
  schedOut : Option Schedule
  rotY : Word
  deriving DecidableEq, Repr

/-- The outputs of rule R26. -/
def State.view (s : State) : View where
  busy := s.busy
  bv := s.bv
  sv := s.sv
  blockOut := s.blockOut
  schedOut := s.schedOut
  rotY := s.rotY

/-! ## Operands of a program line (rule R77) -/

/-- The word that a block token stands for, given the present `BLOCK_OUT`. -/
def BlockToken.word (out : Option Block) : BlockToken → Option Word
  | .lit w => some w
  | .out0 => out.map (·[0])
  | .out1 => out.map (·[1])

/-- The block operand of a program line. -/
def lineBlock (out : Option Block) (b0 b1 : BlockToken) : Option Block :=
  match b0.word out, b1.word out with
  | some w0, some w1 => some #v[w0, w1]
  | _, _ => none

/-! ## Bytes on the host's side (rule R53(b), log entry 17); the core handles none -/

/-- A word from its four bytes, byte `m` being bits `8m + 7 : 8m`. -/
def wordOfBytes (b0 b1 b2 b3 : Byte) : Word := b3 ++ b2 ++ b1 ++ b0

/-- Byte `m` of a word. -/
def byteOfWord (w : Word) (m : Nat) : Byte := w.extractLsb' (8 * m) 8

end Sys2Proof.Machine
end

