-- ==== Sys2Proof/Machine/Cipher.lean ====
section
/-! DEFINITION. The pure functions of the spec: `KSA` (rule R121), `ENCRYPT` (rule R130), `DECRYPT` (rule R140), and
the single mixing step and rounds they are made of, which the sequencer's micro-steps use as well. -/

namespace Sys2Proof.Machine

/-! ## The key schedule (41_key_schedule.md) -/

/-- `S[i]` after phase 1, by the recurrence of rule R112. -/
def initWord : Nat → Word
  | 0 => Config.p32
  | i + 1 => initWord i + Config.q32

/-- All of `S` after phase 1 (rule R112). -/
def initSchedule : Schedule := Vector.ofFn fun i => initWord i

/-- What a mixing step reads and writes: `S`, `K` and the accumulators `A`, `B` (rule R114). The cursors are `cursorS`
and `cursorK`. -/
structure Mixer where
  s : Schedule
  k : Key
  a : Word
  b : Word
  deriving DecidableEq, Repr

/-- The cursor over `S` before step `t` (rules R114, R116): it starts at 0 and advances by one modulo 26. After the last
step `t` is 78. -/
abbrev cursorS (t : Nat) : Fin 26 := Fin.ofNat 26 t

/-- The cursor over `K` before step `t` (rules R114, R116): it starts at 0 and advances by one modulo 4. -/
abbrev cursorK (t : Nat) : Fin 4 := Fin.ofNat 4 t

/-- Mixing step `t` (rule R115): the `K` half uses the new `A`, and the old `B` in both its sum and its amount. -/
def mixStep (m : Mixer) (t : Fin 78) : Mixer :=
  let i := cursorS t
  let j := cursorK t
  let a := rotl (m.s[i] + m.a + m.b) Config.rotS
  let b := rotl (m.k[j] + a + m.b) (amountOf (a + m.b))
  { s := m.s.set i a, k := m.k.set j b, a := a, b := b }

/-- The mixer before step 0 (rules R112, R114). -/
def mixStart (key : Key) : Mixer := { s := initSchedule, k := key, a := 0, b := 0 }

/-- `KSA` (rule R121): 78 mixing steps from the initial schedule, and the words of `S`. -/
def ksa (key : Key) : Schedule := ((List.finRange 78).foldl mixStep (mixStart key)).s

/-! ## Encryption (42_encrypt.md); a pair is `(A, B)` -/

/-- Whitening (rule R132, conflict C1 of 90_conflicts.md). -/
def whiten (s : Schedule) (blk : Block) : Word × Word := (blk[0] + s[0], blk[1] + s[1])

/-- `S[2i]` of round `i`, for the index `i - 1`. -/
def roundKeyA (s : Schedule) (i : Fin 12) : Word := s[2 * (i.val + 1)]

/-- `S[2i + 1]` of round `i`, for the index `i - 1`. -/
def roundKeyB (s : Schedule) (i : Fin 12) : Word := s[2 * (i.val + 1) + 1]

/-- One round (rule R133): the second line uses the `A` that the first has just written. -/
def encRound (s : Schedule) (p : Word × Word) (i : Fin 12) : Word × Word :=
  let a := rotl (p.1 ^^^ p.2) (amountOf p.2) + roundKeyA s i
  let b := rotl (p.2 ^^^ a) (amountOf a) + roundKeyB s i
  (a, b)

/-- Whitening and the twelve rounds, under a schedule. -/
def encryptWith (s : Schedule) (blk : Block) : Block :=
  let p := (List.finRange 12).foldl (encRound s) (whiten s blk)
  #v[p.1, p.2]

/-- `ENCRYPT` (rule R130). -/
def encrypt (blk : Block) (key : Key) : Block := encryptWith (ksa key) blk

/-! ## Decryption (43_decrypt.md) -/

/-- One inverse round (rule R143): `B` first, and the second line uses the new `B`. -/
def decRound (s : Schedule) (p : Word × Word) (i : Fin 12) : Word × Word :=
  let b := rotr (p.2 - roundKeyB s i) (amountOf p.1) ^^^ p.1
  let a := rotr (p.1 - roundKeyA s i) (amountOf b) ^^^ b
  (a, b)

/-- Removing the whitening (rule R144). -/
def unwhiten (s : Schedule) (p : Word × Word) : Word × Word := (p.1 - s[0], p.2 - s[1])

/-- The twelve inverse rounds from 12 down to 1 and the unwhitening, under a schedule; the registers start from the
block (rule R142, conflict C2 of 90_conflicts.md). -/
def decryptWith (s : Schedule) (blk : Block) : Block :=
  let p := unwhiten s ((List.finRange 12).reverse.foldl (decRound s) (blk[0], blk[1]))
  #v[p.1, p.2]

/-- `DECRYPT` (rule R140). -/
def decrypt (blk : Block) (key : Key) : Block := decryptWith (ksa key) blk

end Sys2Proof.Machine
end

