-- ==== Sys2Proof/Machine/Flags.lean ====
section
/-! DEFINITION. The three status flags (rule R28) and the three events that write them. No arithmetic writes a flag. -/

namespace Sys2Proof.Machine

/-- The flags at ACCEPT (rule R35): `BUSY <- 1`, `BV <- 0`, `SV <- 0`. -/
def State.acceptFlags (s : State) : State := { s with busy := true, bv := false, sv := false }

/-- The flags at COMPLETE (rule R35): `BUSY <- 0`, and the flag of the result that `OPR` names is set. `BV` and `SV`
are 0 while a command runs, so a flag that is not set keeps its 0 (log entry 20). -/
def State.completeFlags (s : State) : State :=
  { s with busy := false, bv := s.bv || s.opr == Op.encrypt.code || s.opr == Op.decrypt.code,
           sv := s.sv || s.opr == Op.expand.code }

/-- The flags at reset (rule R170). -/
def State.resetFlags (s : State) : State := { s with busy := false, bv := false, sv := false }

end Sys2Proof.Machine
end

