-- ==== Sys2Proof/Machine/Ops.lean ====
section
/-! DEFINITION. The shared operations of the machine: the micro-steps (rule R29), ACCEPT and COMPLETE (rule R35), reset
(rule R170), and what one rising edge of the clock does (rules R35, R153, R155). The core takes no exception and has no
return from one (rules R150, R154, R155), so there is no such operation here. -/

namespace Sys2Proof.Machine

/-! ## Micro-steps on the data registers -/

/-- `INIT(i)` (rule R112): `S[0] <- P32`, and `S[i] <- S[i-1] + Q32` for `i` from 1 to 25. -/
def initStep (s : Schedule) (i : Fin 26) : Schedule :=
  if h : i.val = 0 then s.set 0 Config.p32
  else s.set i (s[i.val - 1]'(by omega) + Config.q32)

/-- The mixer part of the data registers. -/
def Regs.mixer (r : Regs) : Mixer := { s := r.s, k := r.k, a := r.a, b := r.b }

/-- The data registers with a new mixer part. -/
def Regs.withMixer (r : Regs) (m : Mixer) : Regs := { r with s := m.s, k := m.k, a := m.a, b := m.b }

/-- The pair `(A, B)`. -/
def Regs.pair (r : Regs) : Word × Word := (r.a, r.b)

/-- The data registers with a new `(A, B)`. -/
def Regs.withPair (r : Regs) (p : Word × Word) : Regs := { r with a := p.1, b := p.2 }

/-- The accumulators at the start of mixing (rule R114): both 0 before `MIX(0)`, carried over before the others. The
micro-step list of rule R29 has no entry of its own for this (log entry 10). -/
def Regs.startMix (r : Regs) (t : Fin 78) : Regs := if t.val = 0 then { r with a := 0, b := 0 } else r

/-- What one micro-step does to the data registers. -/
def microStep (r : Regs) : MicroStep → Regs
  | .init i => { r with s := initStep r.s i }
  | .mix t => r.withMixer (mixStep (r.startMix t).mixer t)
  | .whiten => r.withPair (Sys2Proof.Machine.whiten r.s r.blk)
  | .round i => r.withPair (encRound r.s r.pair i)
  | .loadBlk => r.withPair (r.blk[0], r.blk[1])
  | .unround i => r.withPair (decRound r.s r.pair i)
  | .unwhiten => r.withPair (Sys2Proof.Machine.unwhiten r.s r.pair)

/-- Micro-steps in order, each seeing all writes of the earlier ones (rule R57). -/
def runSteps (steps : List MicroStep) (r : Regs) : Regs := steps.foldl microStep r

/-- `INIT(0) .. INIT(25) ; MIX(0) .. MIX(77)` of rule R29. -/
def scheduleSteps : List MicroStep := (List.finRange 26).map .init ++ (List.finRange 78).map .mix

/-- The micro-steps of a command between LOAD and COMPLETE (rule R29). -/
def commandSteps : Op → List MicroStep
  | .expand => scheduleSteps
  | .encrypt => scheduleSteps ++ .whiten :: (List.finRange 12).map .round
  | .decrypt => scheduleSteps ++ .loadBlk :: (List.finRange 12).reverse.map .unround ++ [.unwhiten]

/-- The latency of a command (rule R6): a function of the operation alone (rule R180). -/
def latency : Op → Nat
  | .expand => Config.latExpand
  | .encrypt => Config.latEncrypt
  | .decrypt => Config.latDecrypt

/-! ## Free values -/

/-- The data registers of free value number `n`: 34 words, none shared with another number (log entry 3). -/
def freeRegs (n : Nat) : Regs where
  a := Config.freeWord (34 * n)
  b := Config.freeWord (34 * n + 1)
  s := Vector.ofFn fun i => Config.freeWord (34 * n + 2 + i)
  k := Vector.ofFn fun j => Config.freeWord (34 * n + 28 + j)
  blk := Vector.ofFn fun j => Config.freeWord (34 * n + 32 + j)

/-- The data registers after COMPLETE (rule R35): those that the command delivers hold the result `r`, and the others
are not architectural, so they hold free values `f` (rules R33, R35, U4). -/
def deliver (opr : BitVec 2) (r f : Regs) : Regs :=
  if opr = Op.expand.code then { f with s := r.s }
  else if opr = Op.encrypt.code ∨ opr = Op.decrypt.code then { f with a := r.a, b := r.b }
  else f

/-! ## The life of a command -/

/-- ACCEPT (rule R35): sample the command port into `OPR`, `K`, `BLK`, set the flags, and start the sequencer at the
operation's work list. -/
def accept (op : Op) (key : Key) (blockIn : Block) (s : State) : State :=
  { s with
    regs := { s.regs with k := key, blk := blockIn }
    opr := op.code
    seq := { edgesLeft := latency op, todo := commandSteps op } }.acceptFlags

/-- COMPLETE (rule R35): all micro-steps are done, the result is delivered, its flag is set, `BUSY` falls and the
sequencer is idle. -/
def complete (s : State) : State :=
  { s with
    regs := deliver s.opr (runSteps s.seq.todo s.regs) (freeRegs s.draws)
    seq := Sequencer.idle
    draws := s.draws + 1 }.completeFlags

/-- An edge of a running command that is not its last: some micro-steps are done, in order. -/
def advance (s : State) : State :=
  let n := Config.microStepsAtEdge s.opr s.seq.edgesLeft
  { s with
    regs := runSteps (s.seq.todo.take n) s.regs
    seq := { edgesLeft := s.seq.edgesLeft - 1, todo := s.seq.todo.drop n } }

/-- An edge at which `BUSY = 1` and `RST = 0`: COMPLETE at the last one (rule R35). No input port enters
(rule R155). -/
def busyEdge (s : State) : State := if s.seq.edgesLeft ≤ 1 then complete s else advance s

/-- An edge at which `RST = 1` (rule R170): the flags are cleared and the sequencer idles; the data registers and `OPR`
"keep whatever they held or take any value", so they take free values. -/
def resetEdge (s : State) : State :=
  { s with
    regs := freeRegs s.draws
    opr := Config.freeCode s.draws
    seq := Sequencer.idle
    draws := s.draws + 1 }.resetFlags

/-- The host's levels on the rotator's input ports. They are wires into a combinational unit: no clock, no register and
no flag is involved (rule R90). They stay until the host sets others (log entry 14). -/
def driveRotator (dir : BitVec 1) (v : Word) (amount : BitVec 8) (s : State) : State :=
  { s with rotDir := dir, rotV := v, rotAmt := amount }

/-- A presented command at an edge at which `RST = 0` and `BUSY = 0` (rules R35, R75); the reserved code is refused
(log entry 12). -/
def presentEdge (op : BitVec 2) (key : Key) (blockIn : Block) (s : State) : Host.Outcome State Fault Refusal :=
  match Op.ofCode op with
  | some o => .next (accept o key blockIn s)
  | none => .refused .reservedOp

/-- One rising edge of `CLK` with the given levels on the input ports. Reset wins over COMPLETE, and COMPLETE over
ACCEPT, which needs `BUSY = 0` (rule R153); with neither `BUSY` nor `START`, nothing changes (rule R35). -/
def clockEdge (p : Pins) (s : State) : Host.Outcome State Fault Refusal :=
  let d := driveRotator p.rotDir p.rotV p.rotAmt s
  if p.rst then .next (resetEdge d)
  else if d.busy then .next (busyEdge d)
  else if p.start then presentEdge p.op p.key p.blockIn d
  else .next d

/-! ## The transaction level (rule R36) -/

/-- A command presented once, and then nothing until it completes: ACCEPT and COMPLETE as one atomic step (rule R36).
Presented while `BUSY = 1` it is ignored and lost (rule R155, log entry 13). -/
def runCommand (op : Op) (key : Key) (blockIn : Block) (s : State) : State :=
  if s.busy then s else complete (accept op key blockIn s)

/-- Waiting for `BUSY = 0` (rule R77): a running command completes (log entry 13). -/
def waitIdle (s : State) : State := if s.busy then complete s else s

end Sys2Proof.Machine
end

