-- ==== Sys2Proof/Machine/Decrypt.lean ====
section
/-! DEFINITION. The meaning of `DECRYPT` (rules R140 to R145). -/

namespace Sys2Proof.Machine

/-- `DECRYPT key ; block` (rule R140): the decrypted block on `BLOCK_OUT`, with `BV = 1`. -/
def execDecrypt (key : Key) (blockIn : Block) (s : State) : Host.Outcome State Fault Refusal :=
  .next (runCommand .decrypt key blockIn s)

end Sys2Proof.Machine
end

