-- ==== Sys2Proof/Machine/Encrypt.lean ====
section
/-! DEFINITION. The meaning of `ENCRYPT` (rules R130 to R134). -/

namespace Sys2Proof.Machine

/-- `ENCRYPT key ; block` (rule R130): the encrypted block on `BLOCK_OUT`, with `BV = 1`. -/
def execEncrypt (key : Key) (blockIn : Block) (s : State) : Host.Outcome State Fault Refusal :=
  .next (runCommand .encrypt key blockIn s)

end Sys2Proof.Machine
end

