-- ==== Sys2Proof/Machine/KeySchedule.lean ====
section
/-! DEFINITION. The meaning of `EXPAND` (rules R110, R118, R119). -/

namespace Sys2Proof.Machine

/-- `EXPAND key` (rule R110): the schedule of the key on `SCHED_OUT`, with `SV = 1`. -/
def execExpand (key : Key) (blockIn : Block) (s : State) : Host.Outcome State Fault Refusal :=
  .next (runCommand .expand key blockIn s)

end Sys2Proof.Machine
end

