-- ==== Sys2Proof/Machine/Reserved.lean ====
section
/-! DEFINITION. The meaning of the reserved code `OP = 11` (rule R75). -/

namespace Sys2Proof.Machine

/-- `OP = 11` presented: ignored while `BUSY = 1`, and refused at an ACCEPT opportunity (rule R75, U1). -/
def execReservedOp3 (key : Key) (blockIn : Block) (s : State) : Host.Outcome State Fault Refusal :=
  if s.busy then .next s else presentEdge 0b11#2 key blockIn s

end Sys2Proof.Machine
end

