-- ==== Sys2Proof/Machine/Rotator.lean ====
section
/-! DEFINITION. The meanings of `ROTL` and `ROTR` (rules R90 to R93). The host sets the levels on the rotator's inputs,
and `ROT_Y` (`State.rotY`) is the function of them: no register of the core, no flag and no command is touched. -/

namespace Sys2Proof.Machine

/-- `ROTL v, n` (rule R92): `ROT_DIR = 0`. -/
def execRotl (v : Word) (amount : BitVec 8) (s : State) : Host.Outcome State Fault Refusal :=
  .next (driveRotator 0b0#1 v amount s)

/-- `ROTR v, n` (rule R93): `ROT_DIR = 1`. -/
def execRotr (v : Word) (amount : BitVec 8) (s : State) : Host.Outcome State Fault Refusal :=
  .next (driveRotator 0b1#1 v amount s)

end Sys2Proof.Machine
end

