-- ==== Sys2Proof/Machine/Dispatch.lean ====
section
/-! DEFINITION. One arm for each constructor of `Instr`. -/

namespace Sys2Proof.Machine

def exec (i : Instr) (s : State) : Host.Outcome State Fault Refusal :=
  match i with
  | .expand key blockIn => Sys2Proof.Machine.execExpand key blockIn s
  | .encrypt key blockIn => Sys2Proof.Machine.execEncrypt key blockIn s
  | .decrypt key blockIn => Sys2Proof.Machine.execDecrypt key blockIn s
  | .rotl v amount => Sys2Proof.Machine.execRotl v amount s
  | .rotr v amount => Sys2Proof.Machine.execRotr v amount s
  | .reservedOp3 key blockIn => Sys2Proof.Machine.execReservedOp3 key blockIn s

end Sys2Proof.Machine
end

