-- ==== Sys2Proof/Machine/HostMoves.lean ====
section
/-! DEFINITION. What each move of the host makes the machine do: a program line (rules R36, R77), or one clock edge
(rule R35). -/

namespace Sys2Proof.Machine

/-- The levels of an edge at which the host presents nothing: `RST = 0`, `START = 0`, the rotator's inputs as they
are. The command port's operands are not sampled at such an edge. -/
def State.quietPins (s : State) : Pins where
  rst := false
  start := false
  op := 0
  key := Vector.replicate 4 0
  blockIn := Vector.replicate 2 0
  rotV := s.rotV
  rotAmt := s.rotAmt
  rotDir := s.rotDir

/-- What comes before an instruction of a program line: a command waits for `BUSY = 0` (rule R77); the rotator waits
for nothing, since it may be used while a command is in progress (rule R90, log entry 13). -/
def beforeLine (i : Instr) (s : State) : State :=
  match i with
  | .expand _ _ => waitIdle s
  | .encrypt _ _ => waitIdle s
  | .decrypt _ _ => waitIdle s
  | .rotl _ _ => s
  | .rotr _ _ => s
  | .reservedOp3 _ _ => waitIdle s

/-- One program line: the word is decoded, and the instruction runs once the core is ready for it (rule R77). -/
def runLine (w : PortWord) (s : State) : Host.Outcome State Fault Refusal :=
  exec (decode w) (beforeLine (decode w) s)

/-- A program line whose block operand may copy the previous command's result (rule R77): the host waits, reads
`BLOCK_OUT`, and presents the command. -/
def runLineOut (op : BitVec 2) (key : Key) (b0 b1 : BlockToken) (s : State) : Host.Outcome State Fault Refusal :=
  match lineBlock (waitIdle s).blockOut b0 b1 with
  | some blk => exec (decodeCommand op key blk) (waitIdle s)
  | none => .refused .blockOutNotValid

/-- What a move makes the machine do. -/
def runMove (m : HostMove) (s : State) : Host.Outcome State Fault Refusal :=
  match m with
  | .line w => runLine w s
  | .lineOut op key b0 b1 => runLineOut op key b0 b1 s
  | .edge p => clockEdge p s

/-- The row of wires that a table-numbered word stands for; operand wires are 0 unless the word sets them. -/
def fetchWord (nbits w : Nat) : PortWord :=
  match formatOfBits nbits with
  | .cmd => .cmd (BitVec.ofNat 194 w)
  | .rot => .rot (BitVec.ofNat 41 w)

end Sys2Proof.Machine
end

