-- ==== Sys2Proof/Machine/Step.lean ====
section
/-! DEFINITION. One step of the machine. -/

namespace Sys2Proof.Machine

/-- One step: the host's next move, or, when it has none, a clock edge at which it presents nothing. -/
def step (s : State) : Host.Outcome State Fault Refusal :=
  match s.host with
  | [] => clockEdge s.quietPins s
  | m :: rest => runMove m { s with host := rest }

/-- A table-numbered word placed where `step` takes its next instruction from: a program line, first among the host's
moves. -/
def State.withFetchWord (s : State) (nbits w : Nat) : State :=
  { s with host := .line (fetchWord nbits w) :: s.host }

end Sys2Proof.Machine
end

