-- ==== Sys2Proof/Machine/System.lean ====
section
/-! DEFINITION. A system of `N_INST` cores (rules R6, R61, R157): a list of states, one each, that share nothing. The
list's length is `N_INST`, an open parameter (log entry 18). -/

namespace Sys2Proof.Machine

/-- One core of a system takes a step; a number that names no core is no move. -/
def stepCore (sys : List State) (n : Nat) : Host.Outcome (List State) Fault Refusal :=
  match sys[n]? with
  | none => .next sys
  | some s =>
    match step s with
    | .next t => .next (sys.set n t)
    | .fault r => .fault r
    | .refused r => .refused r

end Sys2Proof.Machine
end

