-- ==== Sys2Proof/Safety.lean ====
section
/-! DEFINITION. The terms in which statements speak of states: the invariant of the core, the conforming host, and
states that differ in nothing but what no output and no later command depends on. -/

namespace Sys2Proof.Machine

/-- The flags of rule R28: at most one of `BV` and `SV` is 1, and `BUSY = 1` implies that both are 0. -/
def State.FlagsOk (s : State) : Prop :=
  ¬(s.bv = true ∧ s.sv = true) ∧ (s.busy = true → s.bv = false ∧ s.sv = false)

/-- The sequencer: idle while `BUSY = 0`; while `BUSY = 1`, `OPR` holds the code of an operation, what is still to do
is the end of that operation's work list (rule R29), and between 1 and `LAT` edges are left (rule R35). -/
def State.SequencerOk (s : State) : Prop :=
  (s.busy = false → s.seq = Sequencer.idle) ∧
  (s.busy = true → ∃ op : Op, s.opr = op.code ∧ s.seq.todo <:+ commandSteps op ∧
    1 ≤ s.seq.edgesLeft ∧ s.seq.edgesLeft ≤ latency op)

/-- The invariant of the core. -/
def State.Inv (s : State) : Prop := s.FlagsOk ∧ s.SequencerOk

/-- A move that a conforming host may make at a state (rules R75, R155, R176): no reserved code that the core could
accept, and no copy of `BLOCK_OUT` that finds `BV = 0`. A line that is a command waits, so it meets the core idle; an edge
meets it as it is, and while `BUSY = 1` its `OP` is harmless. -/
def HostMove.conforming (s : State) : HostMove → Prop
  | .line w => (decode w).wellFormed = true
  | .lineOut op _ b0 b1 => op ≠ 0b11#2 ∧ ((waitIdle s).bv = true ∨ (∃ w0, b0 = .lit w0) ∧ ∃ w1, b1 = .lit w1)
  | .edge p => s.busy = true ∨ p.rst = true ∨ p.start = false ∨ p.op ≠ 0b11#2

/-- The clock edges of a list, in order, stopping where one does. -/
def runEdges : List Pins → State → Host.Outcome State Fault Refusal
  | [], s => .next s
  | p :: ps, s =>
    match clockEdge p s with
    | .next t => runEdges ps t
    | .fault r => .fault r
    | .refused r => .refused r

/-- An edge without reset. -/
def Pins.noReset (p : Pins) : Prop := p.rst = false

/-- An edge at which the host neither resets the core nor presents a command. -/
def Pins.quiet (p : Pins) : Prop := p.rst = false ∧ p.start = false

/-- An edge at which the host presents an operation without reset. -/
def Pins.presents (p : Pins) (op : Op) : Prop := p.rst = false ∧ p.start = true ∧ p.op = op.code

/-- The result of an operation on its operands stands on its port, under its flag alone, and the core is idle (rules
R118, R134, R145). -/
def State.Shows (t : State) (op : Op) (key : Key) (blk : Block) : Prop :=
  t.busy = false ∧
  match op with
  | .expand => t.schedOut = some (ksa key) ∧ t.sv = true ∧ t.bv = false
  | .encrypt => t.blockOut = some (encrypt blk key) ∧ t.bv = true ∧ t.sv = false
  | .decrypt => t.blockOut = some (decrypt blk key) ∧ t.bv = true ∧ t.sv = false

/-- Which mixing step a micro-step is, if it is one (rule R29). -/
def MicroStep.mixNumber : MicroStep → Option (Fin 78)
  | .init _ => none
  | .mix t => some t
  | .whiten => none
  | .round _ => none
  | .loadBlk => none
  | .unround _ => none
  | .unwhiten => none

/-- A micro-step writes `S[i]`: from some registers it leaves another value there. -/
def MicroStep.WritesS (m : MicroStep) (i : Fin 26) : Prop := ∃ r : Regs, (microStep r m).s[i] ≠ r.s[i]

/-- A micro-step writes `K[j]`. -/
def MicroStep.WritesK (m : MicroStep) (j : Fin 4) : Prop := ∃ r : Regs, (microStep r m).k[j] ≠ r.k[j]

/-- The word that a block token stands for at a state whose `BLOCK_OUT` is valid (rule R77). -/
def BlockToken.wordAt (s : State) : BlockToken → Word
  | .lit w => w
  | .out0 => s.regs.a
  | .out1 => s.regs.b

/-- The parts of two register sets that a command with this operation code delivers (rule R35) are equal. -/
def sameDelivered (opr : BitVec 2) (r t : Regs) : Prop :=
  (opr = Op.expand.code → r.s = t.s) ∧ (opr ≠ Op.expand.code → r.pair = t.pair)

/-- Two states that the host cannot tell apart, now or later, although the registers that no output shows (`K`, `BLK`,
`OPR`, and `S`, `A`, `B` outside `SV`, `BV`, rule R33) may hold different values: the same outputs and the same levels
on the rotator's inputs, the same sequencer and the same moves to come, and, while a command runs, the same operation and
a work list that ends in the same delivered result. The free values to come (`draws`) may differ. -/
def State.Alike (s t : State) : Prop :=
  s.view = t.view ∧ s.rotV = t.rotV ∧ s.rotAmt = t.rotAmt ∧ s.rotDir = t.rotDir ∧ s.seq = t.seq ∧
  s.host = t.host ∧
  (s.busy = true → s.opr = t.opr ∧ sameDelivered s.opr (runSteps s.seq.todo s.regs) (runSteps t.seq.todo t.regs))

end Sys2Proof.Machine
end

