-- ==== Sys2Proof/Certificates/Slice0/Obligations.lean ====
section
/-! DEFINITION. The statements for the provers, in the order of the spec's files. -/

open Sys2Proof Sys2Proof.Machine

/-! ## The rotator (40_rotator.md) -/

/-- Rule R90: `ROT_Y` is a function of the levels on the rotator's three inputs and of nothing else. After any clock
edge, reset included, it is that function of the edge's own levels; no command changes it; and a rotator operation, at
any time, leaves every register, flag and output of the command side as it was. -/
def Obligations.RotatorIsCombinational : Prop :=
  (∀ (p : Pins) (s t : State), clockEdge p s = .next t → t.rotY = rotator p.rotDir p.rotV p.rotAmt) ∧
  (∀ (op : Op) (key : Key) (blk : Block) (s : State), (runCommand op key blk s).rotY = s.rotY) ∧
  (∀ (dir : BitVec 1) (v : Word) (amt : BitVec 8) (s : State),
    ∃ t, exec (decodeRotator dir v amt) s = .next t ∧
    t.rotY = rotator dir v amt ∧ t.regs = s.regs ∧ t.opr = s.opr ∧ t.busy = s.busy ∧ t.bv = s.bv ∧ t.sv = s.sv ∧
      t.seq = s.seq ∧ t.blockOut = s.blockOut ∧ t.schedOut = s.schedOut)

/-- Rule R91: the amount of either function is reduced modulo 32; on the 8-bit port an amount that is a multiple of 32
is the identity, and 255 rotates by 31. -/
def Obligations.RotateAmountIsReduced : Prop :=
  (∀ (v : Word) (n : Nat), rotl v n = rotl v (n % 32) ∧ rotr v n = rotr v (n % 32)) ∧
  (∀ (dir : BitVec 1) (v : Word) (amt : BitVec 8), rotator dir v amt = rotator dir v (amt &&& 31#8)) ∧
  (∀ (dir : BitVec 1) (v : Word) (amt : BitVec 8), amt.toNat % 32 = 0 → rotator dir v amt = v) ∧
  (∀ (dir : BitVec 1) (v : Word), rotator dir v 255#8 = rotator dir v 31#8)

/-- Rule R92: `ROTL` completes in every state, whatever the flags; `ROT_Y` is then the pseudocode's value, bit `j` of
the operand has moved to bit `(j + n) mod 32`, and apart from the levels on the rotator's inputs the state is
unchanged. The rule's corner cases and examples are at the end. -/
def Obligations.RotlResultAndFrame : Prop :=
  (∀ (v : Word) (amt : BitVec 8) (s : State),
    let n := amt.toNat % 32
    let t : State := { s with rotDir := 0#1, rotV := v, rotAmt := amt }
    decodeRotator 0#1 v amt = .rotl v amt ∧
    exec (.rotl v amt) s = .next t ∧
    t.rotY.toNat = (if n = 0 then v.toNat else v.toNat * 2 ^ n % 2 ^ 32 + v.toNat / 2 ^ (32 - n)) ∧
    (∀ j < 32, t.rotY.getLsbD ((j + n) % 32) = v.getLsbD j) ∧
    (v = 0#32 → t.rotY = 0#32) ∧ (v = 0xFFFFFFFF#32 → t.rotY = 0xFFFFFFFF#32) ∧
    (n = 16 → t.rotY = v.extractLsb' 0 16 ++ v.extractLsb' 16 16)) ∧
  rotl 0x12345678#32 4 = 0x23456781#32 ∧ rotl 0xB7E15163#32 3 = 0xBF0A8B1D#32 ∧
  rotl 0x80000001#32 1 = 0x00000003#32

/-- Rule R93: the same of `ROTR`, by which bit `(j + n) mod 32` of the operand moves to bit `j`. -/
def Obligations.RotrResultAndFrame : Prop :=
  (∀ (v : Word) (amt : BitVec 8) (s : State),
    let n := amt.toNat % 32
    let t : State := { s with rotDir := 1#1, rotV := v, rotAmt := amt }
    decodeRotator 1#1 v amt = .rotr v amt ∧
    exec (.rotr v amt) s = .next t ∧
    t.rotY.toNat = (if n = 0 then v.toNat else v.toNat / 2 ^ n + v.toNat % 2 ^ n * 2 ^ (32 - n)) ∧
    (∀ j < 32, t.rotY.getLsbD j = v.getLsbD ((j + n) % 32)) ∧
    (v = 0#32 → t.rotY = 0#32) ∧ (v = 0xFFFFFFFF#32 → t.rotY = 0xFFFFFFFF#32) ∧
    (n = 16 → t.rotY = v.extractLsb' 0 16 ++ v.extractLsb' 16 16)) ∧
  rotr 0x12345678#32 4 = 0x81234567#32 ∧ rotr 0x80000001#32 1 = 0xC0000000#32 ∧
  rotr 0x00000001#32 31 = 0x00000002#32

/-- How many bits of a word are 1. -/
def Sys2Proof.onesIn (v : Word) : Nat := (List.range 32).countP fun j => v.getLsbD j

/-- Rule R94, items 1 to 6 in order. -/
def Obligations.RotateLaws : Prop :=
  (∀ (v : Word) (n : Nat), rotl v n = rotl v (n % 32) ∧ rotr v n = rotr v (n % 32)) ∧
  (∀ (v : Word) (n : Nat), rotr v n = rotl v ((32 - n % 32) % 32) ∧ rotl v n = rotr v ((32 - n % 32) % 32)) ∧
  (∀ (v : Word) (n : Nat), rotr (rotl v n) n = v ∧ rotl (rotr v n) n = v) ∧
  (∀ (v : Word) (m n : Nat), rotl (rotl v m) n = rotl v (m + n)) ∧
  (∀ v : Word, rotl v 0 = v ∧ rotr v 0 = v ∧ rotl v 32 = v) ∧
  (∀ (x y : Word) (n : Nat), rotl (x ^^^ y) n = rotl x n ^^^ rotl y n) ∧
  (∀ (v : Word) (n : Nat), onesIn (rotl v n) = onesIn v ∧ onesIn (rotr v n) = onesIn v) ∧
  (∃ (x y : Word) (n : Nat), rotl (x + y) n ≠ rotl x n + rotl y n) ∧
  (∀ a b : Word, (a.toNat + b.toNat) % 32 = amountOf (a + b) ∧ (amountOf a + amountOf b) % 32 = amountOf (a + b))

/-! ## The key schedule (41_key_schedule.md) -/

/-- Rules R112 and R113: the 26 `INIT` micro-steps fill `S` from the two constants, whatever the registers held, and
touch no other register; word `i` is `P32 + i * Q32`, each word is the one before plus `Q32`, and the 26 values are
those of the table. -/
def Obligations.InitialSchedule : Prop :=
  (∀ r : Regs, runSteps ((List.finRange 26).map .init) r = { r with s := initSchedule }) ∧
  (∀ i : Fin 26, initSchedule[i] = 0xB7E15163#32 + BitVec.ofNat 32 i.val * 0x9E3779B9#32) ∧
  (∀ i, (h : i + 1 < 26) → initSchedule[i + 1] = initSchedule[i] + 0x9E3779B9#32) ∧
  initSchedule.toList =
    [0xB7E15163#32, 0x5618CB1C#32, 0xF45044D5#32, 0x9287BE8E#32, 0x30BF3847#32, 0xCEF6B200#32, 0x6D2E2BB9#32,
     0x0B65A572#32, 0xA99D1F2B#32, 0x47D498E4#32, 0xE60C129D#32, 0x84438C56#32, 0x227B060F#32, 0xC0B27FC8#32,
     0x5EE9F981#32, 0xFD21733A#32, 0x9B58ECF3#32, 0x399066AC#32, 0xD7C7E065#32, 0x75FF5A1E#32, 0x1436D3D7#32,
     0xB26E4D90#32, 0x50A5C749#32, 0xEEDD4102#32, 0x8D14BABB#32, 0x2B4C3474#32]

/-- Rule R115 for step `t`, with the cursors of rule R116 and the zero accumulators of rule R114 before step 0: the `S`
half, then the `K` half with the new `A` and the old `B`, and no other word of `S`, `K` or `BLK`. The cursors start at
0 and advance by one modulo 26 and modulo 4. -/
def Obligations.MixingStep : Prop :=
  ∀ (r : Regs) (t : Fin 78),
    let a0 := if t.val = 0 then 0#32 else r.a
    let b0 := if t.val = 0 then 0#32 else r.b
    let u := microStep r (.mix t)
    u.a = rotl (r.s[t.val % 26] + a0 + b0) 3 ∧
    u.b = rotl (r.k[t.val % 4] + u.a + b0) ((u.a + b0).toNat % 32) ∧
    u.s[t.val % 26] = u.a ∧ u.k[t.val % 4] = u.b ∧
    (∀ i : Fin 26, i.val ≠ t.val % 26 → u.s[i] = r.s[i]) ∧
    (∀ j : Fin 4, j.val ≠ t.val % 4 → u.k[j] = r.k[j]) ∧
    u.blk = r.blk ∧
    (t.val = 0 → t.val % 26 = 0 ∧ t.val % 4 = 0) ∧
    (t.val + 1) % 26 = (t.val % 26 + 1) % 26 ∧ (t.val + 1) % 4 = (t.val % 4 + 1) % 4

/-- Rule R116, on the micro-steps: the work list of every operation holds the 78 mixing steps, in order, for every key;
`S[i]` is written exactly by steps `i`, `i + 26`, `i + 52`; `K[j]` exactly by the steps whose cursor is `j`, 20 of them
for `K[0]` and `K[1]` and 19 for `K[2]` and `K[3]`; the last step leaves `A = S[25]` and `B = K[1]`, and the cursors end
at 0 and 2; and the first step's `S` half is the same for every key. -/
def Obligations.MixingCursorLaws : Prop :=
  (∀ op : Op, (commandSteps op).filterMap MicroStep.mixNumber = List.finRange 78) ∧
  (∀ op : Op, ((commandSteps op).filterMap MicroStep.mixNumber).length = 78) ∧
  (∀ (t : Fin 78) (i : Fin 26),
    (MicroStep.mix t).WritesS i ↔ t.val = i.val ∨ t.val = i.val + 26 ∨ t.val = i.val + 52) ∧
  (∀ (t : Fin 78) (j : Fin 4), (MicroStep.mix t).WritesK j ↔ cursorK t = j) ∧
  (∀ j : Fin 4, ∃ steps : List (Fin 78), steps.Nodup ∧ steps.length = (if j.val < 2 then 20 else 19) ∧
    ∀ t, t ∈ steps ↔ (MicroStep.mix t).WritesK j) ∧
  (∀ t : Fin 78, (cursorS t).val = t.val % 26 ∧ (cursorK t).val = t.val % 4) ∧
  (∀ r : Regs, let u := microStep r (.mix 77)
    u.a = u.s[25] ∧ u.b = u.k[1]) ∧
  cursorS 78 = 0 ∧ cursorK 78 = 2 ∧
  (∀ key : Key, let m := (List.finRange 78).foldl mixStep (mixStart key)
    m.a = m.s[25] ∧ m.b = m.k[1]) ∧
  (∀ key : Key, (mixStep (mixStart key) 0).s[0] = 0xBF0A8B1D#32)

/-- Sequences of register contents, one entry for each point between two steps, that start as the pseudocode of rule
R121 starts and follow it for its 78 steps: `S t i` is `S[i]` before step `t`, and likewise `K`, `A`, `B`. -/
def Sys2Proof.FollowsKsa (key : Key) (S K : Nat → Nat → Word) (A B : Nat → Word) : Prop :=
  S 0 0 = 0xB7E15163#32 ∧ (∀ i, 1 ≤ i → i ≤ 25 → S 0 i = S 0 (i - 1) + 0x9E3779B9#32) ∧
  (∀ j : Fin 4, K 0 j = key[j]) ∧ A 0 = 0 ∧ B 0 = 0 ∧
  ∀ t < 78,
    S (t + 1) (t % 26) = rotl (S t (t % 26) + A t + B t) 3 ∧ A (t + 1) = S (t + 1) (t % 26) ∧
    K (t + 1) (t % 4) = rotl (K t (t % 4) + A (t + 1) + B t) ((A (t + 1) + B t).toNat % 32) ∧
    B (t + 1) = K (t + 1) (t % 4) ∧
    (∀ i < 26, i ≠ t % 26 → S (t + 1) i = S t i) ∧ (∀ j < 4, j ≠ t % 4 → K (t + 1) j = K t j)

/-- Rule R121, in the spec's own loops: for any sequences of register contents that follow the pseudocode, `KSA` is the
array that they end in. -/
def Obligations.KsaFollowsItsPseudocode : Prop :=
  ∀ (key : Key) (S K : Nat → Nat → Word) (A B : Nat → Word),
    FollowsKsa key S K A B → ∀ i : Fin 26, (ksa key)[i] = S 78 i

/-- Rules R29 and R32(b): the work list of the key schedule computes `KSA` of the key in `K`, whatever `A`, `B`, `S`
held before, and leaves the block operand alone. -/
def Obligations.ScheduleWorkComputesKsa : Prop :=
  ∀ r : Regs, (runSteps scheduleSteps r).s = ksa r.k ∧ (runSteps scheduleSteps r).blk = r.blk

/-- Rule R118: an `EXPAND` presented while `BUSY = 0` completes, for every key, with the key's schedule on `SCHED_OUT`,
`SV = 1`, `BUSY = 0`. `BV` is 0, `BLOCK_OUT` means nothing, `OPR` holds the code, the sequencer is idle, and the
rotator's side and the host's later moves are unchanged. `A`, `B`, `K`, `BLK` hold values that rule R35 does not
give. -/
def Obligations.ExpandResultAndFrame : Prop :=
  ∀ (key : Key) (blk : Block) (s : State), s.busy = false →
    ∃ t, exec (.expand key blk) s = .next t ∧
      t.schedOut = some (ksa key) ∧ t.regs.s = ksa key ∧ t.sv = true ∧ t.busy = false ∧
      t.bv = false ∧ t.blockOut = none ∧ t.opr = 0b00#2 ∧ t.seq = Sequencer.idle ∧
      t.rotV = s.rotV ∧ t.rotAmt = s.rotAmt ∧ t.rotDir = s.rotDir ∧ t.rotY = s.rotY ∧ t.host = s.host

/-! ## Encryption and decryption (42_encrypt.md, 43_decrypt.md) -/

/-- Sequences that start with the whitened block (rule R132) and follow the twelve rounds (rule R133) under a schedule:
`A i`, `B i` are the registers after round `i`. -/
def Sys2Proof.FollowsRounds (S : Schedule) (blk : Block) (A B : Nat → Word) : Prop :=
  A 0 = blk[0] + S[0] ∧ B 0 = blk[1] + S[1] ∧
  ∀ i, 1 ≤ i → (h : i ≤ 12) →
    A i = rotl (A (i - 1) ^^^ B (i - 1)) ((B (i - 1)).toNat % 32) + S[2 * i] ∧
    B i = rotl (B (i - 1) ^^^ A i) ((A i).toNat % 32) + S[2 * i + 1]

/-- Rules R132 and R133: for any sequences that follow whitening and the rounds under `KSA` of the key, `ENCRYPT` is the
pair they end in. -/
def Obligations.EncryptFollowsItsPseudocode : Prop :=
  ∀ (blk : Block) (key : Key) (A B : Nat → Word),
    FollowsRounds (ksa key) blk A B → encrypt blk key = #v[A 12, B 12]

/-- Sequences that start, at index 12, with the block (rule R142) and follow the inverse rounds 12 down to 1 (rule R143)
under a schedule: `A (i - 1)`, `B (i - 1)` are the registers after inverse round `i`. -/
def Sys2Proof.FollowsInverseRounds (S : Schedule) (blk : Block) (A B : Nat → Word) : Prop :=
  A 12 = blk[0] ∧ B 12 = blk[1] ∧
  ∀ i, 1 ≤ i → (h : i ≤ 12) →
    B (i - 1) = rotr (B i - S[2 * i + 1]) ((A i).toNat % 32) ^^^ A i ∧
    A (i - 1) = rotr (A i - S[2 * i]) ((B (i - 1)).toNat % 32) ^^^ B (i - 1)

/-- Rules R142, R143, R144: for any sequences that follow the inverse rounds under `KSA` of the key, `DECRYPT` is the
pair at index 0 with the whitening removed. -/
def Obligations.DecryptFollowsItsPseudocode : Prop :=
  ∀ (blk : Block) (key : Key) (A B : Nat → Word),
    FollowsInverseRounds (ksa key) blk A B →
    decrypt blk key = #v[A 0 - (ksa key)[0], B 0 - (ksa key)[1]]

/-- Rule R134: an `ENCRYPT` presented while `BUSY = 0` completes, for every key and block, with `ENCRYPT` of the
operands on `BLOCK_OUT`, `BV = 1`, `SV = 0`, `BUSY = 0`; the schedule is not delivered; `OPR` holds the code, the
sequencer is idle, and the rotator's side and the host's later moves are unchanged. `S`, `K`, `BLK` hold values that
rule R35 does not give. -/
def Obligations.EncryptResultAndFrame : Prop :=
  ∀ (key : Key) (blk : Block) (s : State), s.busy = false →
    ∃ t, exec (.encrypt key blk) s = .next t ∧
      t.blockOut = some (encrypt blk key) ∧ #v[t.regs.a, t.regs.b] = encrypt blk key ∧
      t.bv = true ∧ t.sv = false ∧ t.busy = false ∧ t.schedOut = none ∧
      t.opr = 0b01#2 ∧ t.seq = Sequencer.idle ∧
      t.rotV = s.rotV ∧ t.rotAmt = s.rotAmt ∧ t.rotDir = s.rotDir ∧ t.rotY = s.rotY ∧ t.host = s.host

/-- Rule R145: the same of `DECRYPT`. -/
def Obligations.DecryptResultAndFrame : Prop :=
  ∀ (key : Key) (blk : Block) (s : State), s.busy = false →
    ∃ t, exec (.decrypt key blk) s = .next t ∧
      t.blockOut = some (decrypt blk key) ∧ #v[t.regs.a, t.regs.b] = decrypt blk key ∧
      t.bv = true ∧ t.sv = false ∧ t.busy = false ∧ t.schedOut = none ∧
      t.opr = 0b10#2 ∧ t.seq = Sequencer.idle ∧
      t.rotV = s.rotV ∧ t.rotAmt = s.rotAmt ∧ t.rotDir = s.rotDir ∧ t.rotY = s.rotY ∧ t.host = s.host

/-- Rule R146, items 1 and 2: under every key, `DECRYPT` undoes `ENCRYPT` and `ENCRYPT` undoes `DECRYPT`, on every
block. -/
def Obligations.DecryptAndEncryptAreInverse : Prop :=
  ∀ (blk : Block) (key : Key),
    decrypt (encrypt blk key) key = blk ∧ encrypt (decrypt blk key) key = blk

/-- Rule R146 item 4 with rule R77, on the machine: from any state, busy or not, a program line that encrypts a block,
and then a line that decrypts `OUT0, OUT1` under the same key, leave the block on `BLOCK_OUT`. That a line is a move
held in State, and one step with its wait, is the model's choice (log entries 6 and 13). -/
def Obligations.RoundTripByProgramLines : Prop :=
  ∀ (key : Key) (blk : Block) (rest : List HostMove) (s : State),
    s.host = .line (encode (.encrypt key blk)) :: .lineOut 0b10#2 key .out0 .out1 :: rest →
    ∃ t u, step s = .next t ∧ t.blockOut = some (encrypt blk key) ∧
      step t = .next u ∧ u.blockOut = some blk ∧ u.host = rest

/-- Rule R177: an `EXPAND` with one key and then an `ENCRYPT` or a `DECRYPT` with another works under the second only,
and leaves no schedule on `SCHED_OUT`. -/
def Obligations.ExpandDoesNotFeedLaterCommand : Prop :=
  ∀ (key1 key2 : Key) (blk1 blk2 : Block) (s : State), s.busy = false →
    ∃ t u v, exec (.expand key1 blk1) s = .next t ∧
      exec (.encrypt key2 blk2) t = .next u ∧ u.blockOut = some (encrypt blk2 key2) ∧ u.schedOut = none ∧
      exec (.decrypt key2 blk2) t = .next v ∧ v.blockOut = some (decrypt blk2 key2) ∧ v.schedOut = none

/-! ## Ports, flags and the life of a command (10_state.md) -/

/-- Rule R26: what the output ports show. That a result port offers no value at all while its flag is 0 is the model's
form of "unspecified" (log entry 11, from rule R176, U2 and U3), not rule R26's. -/
def Obligations.OutputPorts : Prop :=
  ∀ s : State,
    (s.bv = true → s.blockOut = some #v[s.regs.a, s.regs.b]) ∧ (s.bv = false → s.blockOut = none) ∧
    (s.sv = true → s.schedOut = some s.regs.s) ∧ (s.sv = false → s.schedOut = none) ∧
    s.view.busy = s.busy ∧ s.view.bv = s.bv ∧ s.view.sv = s.sv ∧
    s.rotY = rotator s.rotDir s.rotV s.rotAmt

/-- Rule R27: the flat buses carry word `j` on wires `32j + 31 : 32j`. -/
def Obligations.FlatBusPacking : Prop :=
  (∀ (k : Key) (j : Fin 4), (keyBus k).extractLsb' (32 * j) 32 = k[j]) ∧
  (∀ (b : Block) (j : Fin 2), (blockBus b).extractLsb' (32 * j) 32 = b[j]) ∧
  (∀ (s : Schedule) (j : Fin 26), (schedBus s).extractLsb' (32 * j) 32 = s[j])

/-- Rule R29: the micro-steps of each operation before COMPLETE, counting LOAD, and their order. -/
def Obligations.MicroStepLists : Prop :=
  1 + (commandSteps .expand).length = 105 ∧ 1 + (commandSteps .encrypt).length = 118 ∧
  1 + (commandSteps .decrypt).length = 119 ∧
  (∀ i : Fin 26, ∀ op : Op, (commandSteps op)[i.val]? = some (.init i)) ∧
  (∀ t : Fin 78, ∀ op : Op, (commandSteps op)[26 + t.val]? = some (.mix t)) ∧
  (commandSteps .encrypt)[104]? = some .whiten ∧
  (∀ i : Fin 12, (commandSteps .encrypt)[105 + i.val]? = some (.round i)) ∧
  (commandSteps .decrypt)[104]? = some .loadBlk ∧
  (∀ i : Fin 12, (commandSteps .decrypt)[105 + i.val]? = some (.unround i.rev)) ∧
  (commandSteps .decrypt)[117]? = some .unwhiten

/-- Rule R35, ACCEPT: at an edge with `RST = 0`, `BUSY = 0`, `START = 1` and `OP` one of the three codes, `OPR`, `K`,
`BLK` are loaded and the flags are set as listed; `A`, `B`, `S` are not written, and the sequencer starts at the
operation's own list and latency, whatever the operands (rule R180). -/
def Obligations.AcceptEdge : Prop :=
  ∀ (op : Op) (p : Pins) (s : State), p.presents op → s.busy = false →
    ∃ t, clockEdge p s = .next t ∧
      t.opr = p.op ∧ t.regs.k = p.key ∧ t.regs.blk = p.blockIn ∧ t.busy = true ∧ t.bv = false ∧ t.sv = false ∧
      t.regs.a = s.regs.a ∧ t.regs.b = s.regs.b ∧ t.regs.s = s.regs.s ∧
      t.seq.todo = commandSteps op ∧ t.seq.edgesLeft = latency op ∧ 1 ≤ latency op ∧
      t.blockOut = none ∧ t.schedOut = none ∧ t.host = s.host

/-- Rule R35, the whole life of a command at the clock: after ACCEPT, as long as no edge has reset, the core is busy
with both result flags 0 for `LAT - 1` edges, and at edge `LAT` the result of the operands sampled at ACCEPT is there
under its flag, whatever `START`, `OP`, `KEY`, `BLOCK_IN` were meanwhile. -/
def Obligations.CommandLifeCycle : Prop :=
  ∀ (op : Op) (p : Pins) (ps : List Pins) (s : State),
    p.presents op → s.busy = false → ps.length = latency op → (∀ q ∈ ps, q.noReset) →
    (∀ n < latency op, ∃ u, runEdges (p :: ps.take n) s = .next u ∧
      u.busy = true ∧ u.bv = false ∧ u.sv = false ∧ u.blockOut = none ∧ u.schedOut = none) ∧
    ∃ t, runEdges (p :: ps) s = .next t ∧ t.busy = false ∧
      match op with
      | .expand => t.schedOut = some (ksa p.key) ∧ t.sv = true ∧ t.bv = false
      | .encrypt => t.blockOut = some (encrypt p.blockIn p.key) ∧ t.bv = true ∧ t.sv = false
      | .decrypt => t.blockOut = some (decrypt p.blockIn p.key) ∧ t.bv = true ∧ t.sv = false

/-- Rule R36: ACCEPT and the `LAT` edges after it, without reset, are together the one atomic step that the instruction
is at the transaction level, but for the levels that the last edge leaves on the rotator's inputs. -/
def Obligations.ClockEdgesRefineInstruction : Prop :=
  ∀ (op : Op) (p q : Pins) (ps : List Pins) (s : State),
    p.presents op → s.busy = false → ps.length + 1 = latency op → (∀ x ∈ ps, x.noReset) → q.noReset →
    runEdges (p :: ps ++ [q]) s =
      exec (decodeCommand p.op p.key p.blockIn) (driveRotator q.rotDir q.rotV q.rotAmt s)

/-- Rules R28 and R55: a result stays on its port, under its flag, through any number of edges with neither reset nor
a command, and so does the absence of one. -/
def Obligations.ResultStaysUntilNextCommand : Prop :=
  ∀ (ps : List Pins) (s : State), s.busy = false → (∀ q ∈ ps, q.quiet) →
    ∃ t, runEdges ps s = .next t ∧ t.busy = false ∧ t.bv = s.bv ∧ t.sv = s.sv ∧
      t.blockOut = s.blockOut ∧ t.schedOut = s.schedOut ∧ t.regs = s.regs ∧ t.opr = s.opr ∧ t.seq = s.seq

/-- The invariant of the core (rules R28, R29, R35) holds after reset. -/
def Obligations.ResetMeetsInvariant : Prop := State.reset.Inv

/-- Every step keeps the invariant: at most one of `BV` and `SV` is 1, neither while `BUSY = 1`; the sequencer is idle
exactly while `BUSY = 0`, and otherwise `OPR` names an operation, what is to do is the end of its list, and the edges
left are between 1 and its latency. -/
def Obligations.StepKeepsInvariant : Prop :=
  ∀ s t : State, s.Inv → step s = .next t → t.Inv

/-- Rules R32 and R33: what an earlier command left in the registers, and the keys and blocks it was given, never reach
an output. Two states that look alike to the host, whatever `K`, `BLK`, `OPR` and the registers that no flag shows
hold and whatever free values they draw, still look alike after every step, or stop in the same way. -/
def Obligations.HiddenRegistersNeverReachOutputs : Prop :=
  ∀ s t : State, s.Inv → t.Inv → s.Alike t →
    (∃ u v, step s = .next u ∧ step t = .next v ∧ u.Alike v) ∨ ∃ r, step s = .refused r ∧ step t = .refused r

/-! ## Encodings (30_encoding.md) -/

/-- Rules R70 to R73: the decoder gives back every instruction from its encoding, with every operand at every value. The
place of the operand wires in the row is the model's choice (log entry 8). -/
def Obligations.DecodeOfEncode : Prop := ∀ i : Instr, decode (encode i) = i

/-- Rules R70, R76: every pattern of the wires is the encoding of the instruction it decodes to, so no two patterns
mean the same and no wire is dropped. The place of the operand wires in the row is the model's choice (log entry 8). -/
def Obligations.EncodeOfDecode : Prop := ∀ w : PortWord, encode (decode w) = w

/-- Words written out from the tables of rules R71 and R72 decode to what they stand for: all operand wires 0, and one
word of each format with each operand wire group carrying a value of its own. Where the operand wires stand in the row
is the model's choice (log entry 8). -/
def Obligations.WrittenOutWords : Prop :=
  decode (.cmd 0b00#194) = .expand (Vector.replicate 4 0) (Vector.replicate 2 0) ∧
  decode (.cmd 0b01#194) = .encrypt (Vector.replicate 4 0) (Vector.replicate 2 0) ∧
  decode (.cmd 0b10#194) = .decrypt (Vector.replicate 4 0) (Vector.replicate 2 0) ∧
  decode (.cmd 0b11#194) = .reservedOp3 (Vector.replicate 4 0) (Vector.replicate 2 0) ∧
  decode (.rot 0b0#41) = .rotl 0 0 ∧ decode (.rot 0b1#41) = .rotr 0 0 ∧
  decode (.cmd (0x00000006#32 ++ 0x00000005#32 ++ 0x00000004#32 ++ 0x00000003#32 ++ 0x00000002#32 ++ 0x00000001#32 ++
    0b10#2)) = .decrypt #v[1#32, 2#32, 3#32, 4#32] #v[5#32, 6#32] ∧
  decode (.rot (0x24#8 ++ 0x12345678#32 ++ 0b1#1)) = .rotr 0x12345678#32 36#8

/-- Rule R75: `OP = 11` is refused at an ACCEPT opportunity, as an instruction and at the clock, and is ignored while
`BUSY = 1`, as an instruction and at the clock. -/
def Obligations.ReservedCode : Prop :=
  (∀ (key : Key) (blk : Block) (s : State), s.busy = false →
    exec (.reservedOp3 key blk) s = .refused .reservedOp) ∧
  (∀ (p : Pins) (s : State), s.busy = false → p.rst = false → p.start = true → p.op = 0b11#2 →
    clockEdge p s = .refused .reservedOp) ∧
  (∀ (key : Key) (blk : Block) (s : State), s.busy = true → exec (.reservedOp3 key blk) s = .next s) ∧
  (∀ (p : Pins) (s : State), s.busy = true → p.rst = false →
    clockEdge { p with op := 0b11#2 } s = clockEdge p s)

/-- The step runs the decoded instruction, on the state without the move. A line that is a command, met while
`BUSY = 1`, first waits (rule R77): it runs on what COMPLETE of the running command leaves. With `BUSY = 0`, and for a
rotator operation at any time (rule R90), it runs at once. That the host's moves stand in a list of the state is the
model's choice (log entry 6), and so is the wait of a line as part of its step (log entry 13). -/
def Obligations.StepRunsDecodedInstruction : Prop :=
  ∀ (w : PortWord) (rest : List HostMove) (s : State), s.host = .line w :: rest →
    (s.busy = false → step s = exec (decode w) { s with host := rest }) ∧
    (∀ v amt, decode w = .rotl v amt ∨ decode w = .rotr v amt → step s = exec (decode w) { s with host := rest }) ∧
    (∀ op key blk, decode w = decodeCommand op key blk → s.busy = true →
      step s = exec (decode w) (complete { s with host := rest }))

/-- The other moves (rules R35, R77). An edge at the head of the host's moves is a clock edge. With no move left, the
machine takes an edge at which nothing is presented. A line that copies `OUT0` or `OUT1` waits, if a command runs, until
that has completed, and then presents its block, literals as they are and the others from `BLOCK_OUT`; a copy that finds
`BV = 0` is refused. The moves in State, the wait within the step and the refusal are the model's choices (log entries 6,
13 and 11). -/
def Obligations.StepRunsOtherMoves : Prop :=
  (∀ (p : Pins) (rest : List HostMove) (s : State), s.host = .edge p :: rest →
    step s = clockEdge p { s with host := rest }) ∧
  (∀ s : State, s.host = [] → s.busy = false → step s = .next s) ∧
  (∀ s : State, s.host = [] → s.busy = true → step s = .next (busyEdge s)) ∧
  (∀ (op : BitVec 2) (key : Key) (b0 b1 : BlockToken) (rest : List HostMove) (s : State),
    s.host = .lineOut op key b0 b1 :: rest →
    let u := if s.busy then complete { s with host := rest } else { s with host := rest }
    (u.bv = true → step s = exec (decodeCommand op key #v[b0.wordAt u, b1.wordAt u]) u) ∧
    (∀ w0 w1, b0 = .lit w0 → b1 = .lit w1 → step s = exec (decodeCommand op key #v[w0, w1]) u) ∧
    (u.bv = false → (b0 = .out0 ∨ b0 = .out1 ∨ b1 = .out0 ∨ b1 = .out1) → step s = .refused .blockOutNotValid))

/-- Rules R35 and R77, a program line met while a command runs, at any edge between its ACCEPT and its COMPLETE. A line
with operands of its own gives its own result. A line that copies `OUT0, OUT1` works on the running command's result,
and is refused when that is an `EXPAND`, which leaves `BV = 0`. The moves in State, the wait within the step and the
refusal are the model's choices (log entries 6, 13 and 11). -/
def Obligations.LineWaitsForRunningCommand : Prop :=
  ∀ (op : Op) (p : Pins) (ps : List Pins) (s0 s : State) (rest : List HostMove) (next : Op) (key : Key) (blk : Block),
    p.presents op → s0.busy = false → ps.length < latency op → (∀ q ∈ ps, q.noReset) →
    runEdges (p :: ps) s0 = .next s →
    (∃ t, step { s with host := .line (encode (decodeCommand next.code key blk)) :: rest } = .next t ∧
      t.Shows next key blk ∧ t.host = rest) ∧
    (op = .expand →
      step { s with host := .lineOut next.code key .out0 .out1 :: rest } = .refused .blockOutNotValid) ∧
    (op = .encrypt → ∃ t, step { s with host := .lineOut next.code key .out0 .out1 :: rest } = .next t ∧
      t.Shows next key (encrypt p.blockIn p.key) ∧ t.host = rest) ∧
    (op = .decrypt → ∃ t, step { s with host := .lineOut next.code key .out0 .out1 :: rest } = .next t ∧
      t.Shows next key (decrypt p.blockIn p.key) ∧ t.host = rest)

/-- A table-numbered word placed by `withFetchWord` is the instruction that the very next step runs (log entry 7: the
model's choice of what placing a program means). -/
def Obligations.FetchedWordRunsNext : Prop :=
  ∀ (nbits w : Nat) (s : State), s.busy = false →
    step (s.withFetchWord nbits w) = exec (decode (fetchWord nbits w)) s

/-! ## Exceptions, simultaneous events, and cores side by side (60_exceptions.md, 20_memory.md) -/

/-- Rule R150: every operation has a next state, in every state and for every operand; and nothing reports a failure: the
three flags after a command are the same for all operands, and a rotator operation leaves them as they were. -/
def Obligations.EveryOperationCompletes : Prop :=
  (∀ (i : Instr) (s : State), i.wellFormed = true → ∃ t, exec i s = .next t) ∧
  (∀ (op : Op) (key : Key) (blk : Block) (s : State), s.busy = false →
    ∃ t, exec (decodeCommand op.code key blk) s = .next t ∧
      t.busy = false ∧ t.bv = decide (op ≠ .expand) ∧ t.sv = decide (op = .expand)) ∧
  (∀ (dir : BitVec 1) (v : Word) (amt : BitVec 8) (s : State),
    ∃ t, exec (decodeRotator dir v amt) s = .next t ∧ t.busy = s.busy ∧ t.bv = s.bv ∧ t.sv = s.sv)

/-- Rules R75, R150, R155, R176, R181: the core never stops under a conforming host; whatever its registers hold, a
conforming next move, or none, has a next state. A reserved code at an edge with `BUSY = 1` is conforming. What the
moves are, and which of them are refused, is the model's form (log entries 6, 11 and 12). -/
def Obligations.ConformingHostNeverStops : Prop :=
  ∀ s : State, (∀ m rest, s.host = m :: rest → m.conforming s) → ∃ t, step s = .next t

/-- Rule R153: reset wins over COMPLETE and over a presented command; a command presented at the edge of COMPLETE is not
accepted, and the edge after it can accept one; `ROT_Y` goes by its own inputs through all of it. -/
def Obligations.EventPriority : Prop :=
  (∀ (p : Pins) (s : State), p.rst = true → ∃ t, clockEdge p s = .next t ∧
    t.busy = false ∧ t.bv = false ∧ t.sv = false ∧ t.seq = Sequencer.idle ∧
    t.rotY = rotator p.rotDir p.rotV p.rotAmt) ∧
  (∀ (p : Pins) (s : State), p.rst = false → s.busy = true → s.seq.edgesLeft = 1 → ∃ t, clockEdge p s = .next t ∧
    t.busy = false ∧ t.seq = Sequencer.idle ∧ t.opr = s.opr ∧ t.rotY = rotator p.rotDir p.rotV p.rotAmt ∧
    clockEdge { p with start := false } s = .next t ∧
    ∀ (op : Op) (q : Pins), q.presents op → ∃ u, clockEdge q t = .next u ∧ u.busy = true ∧ u.opr = op.code)

/-- Rule R155: while `BUSY = 1`, `START`, `OP`, `KEY`, `BLOCK_IN` have no effect: two edges without reset that agree on
the rotator's inputs give the same next state, and a command presented as an instruction is lost. -/
def Obligations.CommandPortIgnoredWhileBusy : Prop :=
  (∀ (p q : Pins) (s : State), s.busy = true → p.noReset → q.noReset →
    p.rotV = q.rotV → p.rotAmt = q.rotAmt → p.rotDir = q.rotDir → clockEdge p s = clockEdge q s) ∧
  (∀ (key : Key) (blk : Block) (s : State), s.busy = true →
    exec (.expand key blk) s = .next s ∧ exec (.encrypt key blk) s = .next s ∧ exec (.decrypt key blk) s = .next s ∧
    exec (.reservedOp3 key blk) s = .next s)

/-- Rules R61 and R157: cores share nothing. A step of one core of a system changes that core alone, as it would change
it alone, and steps of two cores give the same system in either order. -/
def Obligations.CoresAreIndependent : Prop :=
  (∀ (sys u : List State) (n : Nat) (s : State), sys[n]? = some s → stepCore sys n = .next u →
    step s = .next (u[n]?.getD s) ∧ u.length = sys.length ∧ ∀ m, m ≠ n → u[m]? = sys[m]?) ∧
  (∀ (sys u w : List State) (n m : Nat), n ≠ m → stepCore sys n = .next u → stepCore u m = .next w →
    ∃ v, stepCore sys m = .next v ∧ stepCore v n = .next w)

/-! ## Reset and time (70_reset_and_hazards.md) -/

/-- Rules R34 and R171: after reset the three flags are 0, the sequencer is idle, no output port shows a result, and
`ROT_Y` is the rotator's function of its inputs. The values of the data registers are the model's choice and are not
stated. -/
def Obligations.StateAfterReset : Prop :=
  State.reset.busy = false ∧ State.reset.bv = false ∧ State.reset.sv = false ∧
  State.reset.seq = Sequencer.idle ∧ State.reset.blockOut = none ∧ State.reset.schedOut = none ∧
  State.reset.rotY = rotator State.reset.rotDir State.reset.rotV State.reset.rotAmt

/-- Rule R170: at every edge with `RST = 1`, whatever else is on the ports and whatever runs, the flags are cleared and
the sequencer idles; the rotator goes by its inputs. -/
def Obligations.ResetEdge : Prop :=
  ∀ (p : Pins) (s : State), p.rst = true → ∃ t, clockEdge p s = .next t ∧
    t.busy = false ∧ t.bv = false ∧ t.sv = false ∧ t.seq = Sequencer.idle ∧
    t.blockOut = none ∧ t.schedOut = none ∧ t.rotY = rotator p.rotDir p.rotV p.rotAmt ∧ t.host = s.host

/-- Rule R172: a command that a reset abandons before its COMPLETE never shows a result, however long the host then
waits, and the next command, whichever it is, gives the result it gives on its own. -/
def Obligations.ResetAbandonsCommand : Prop :=
  ∀ (op : Op) (p r : Pins) (ps qs : List Pins) (s : State),
    p.presents op → s.busy = false → ps.length < latency op → (∀ q ∈ ps, q.noReset) → r.rst = true →
    (∀ q ∈ qs, q.quiet) →
    ∃ t, runEdges (p :: ps ++ r :: qs) s = .next t ∧
      t.busy = false ∧ t.bv = false ∧ t.sv = false ∧ t.blockOut = none ∧ t.schedOut = none ∧
      ∀ (key : Key) (blk : Block),
        (∃ u, exec (.expand key blk) t = .next u ∧ u.schedOut = some (ksa key)) ∧
        (∃ u, exec (.encrypt key blk) t = .next u ∧ u.blockOut = some (encrypt blk key)) ∧
        ∃ u, exec (.decrypt key blk) t = .next u ∧ u.blockOut = some (decrypt blk key)

/-- Rule R181: from every state of the invariant with a command running, the command completes after exactly the edges
left to it, if none resets, with `BUSY = 0` and exactly one result flag. -/
def Obligations.RunningCommandCompletes : Prop :=
  ∀ (ps : List Pins) (s : State), s.Inv → s.busy = true → ps.length = s.seq.edgesLeft → (∀ q ∈ ps, q.noReset) →
    ∃ t, runEdges ps s = .next t ∧ t.busy = false ∧ (t.bv = true ↔ t.sv = false) ∧ t.seq = Sequencer.idle

/-! ## Bytes on the host's side (20_memory.md) -/

/-- Rule R53(b), the byte convention that the spec gives to hosts (log entry 17): byte 0 of a word is bits 7:0, byte 1
bits 15:8, byte 2 bits 23:16, byte 3 bits 31:24. With it, the first key word of known-answer vector 2 is the bytes
`91 5F 46 19`. -/
def Obligations.HostByteOrder : Prop :=
  (∀ b0 b1 b2 b3 : Byte,
    (wordOfBytes b0 b1 b2 b3).extractLsb' 0 8 = b0 ∧ (wordOfBytes b0 b1 b2 b3).extractLsb' 8 8 = b1 ∧
    (wordOfBytes b0 b1 b2 b3).extractLsb' 16 8 = b2 ∧ (wordOfBytes b0 b1 b2 b3).extractLsb' 24 8 = b3) ∧
  (∀ w : Word,
    byteOfWord w 0 = w.extractLsb' 0 8 ∧ byteOfWord w 1 = w.extractLsb' 8 8 ∧
    byteOfWord w 2 = w.extractLsb' 16 8 ∧ byteOfWord w 3 = w.extractLsb' 24 8) ∧
  (∀ w : Word, wordOfBytes (byteOfWord w 0) (byteOfWord w 1) (byteOfWord w 2) (byteOfWord w 3) = w) ∧
  wordOfBytes 0x91#8 0x5F#8 0x46#8 0x19#8 = 0x19465F91#32
end

