-- ==== Sys2Proof/Laws/Rotate.lean ====
section
/-! SUPPORT. The rotator functions agree with the library's rotations, and what follows from that: their bits and that
each is the inverse of the other (rules R92 to R94). -/

namespace Sys2Proof.Machine

theorem rotl_mod (v : Word) (n : Nat) : rotl v (n % 32) = rotl v n := by simp [rotl]

theorem rotr_mod (v : Word) (n : Nat) : rotr v (n % 32) = rotr v n := by simp [rotr]

theorem rotl_of_mod_zero {n : Nat} (h : n % 32 = 0) (v : Word) : rotl v n = v := if_pos h

theorem rotr_of_mod_zero {n : Nat} (h : n % 32 = 0) (v : Word) : rotr v n = v := if_pos h

/-- The two terms of a rotation by `m` have no bit in common, so their sum is their "or" (rule R92). -/
theorem nat_rotate_eq_or {x m k : Nat} (hx : x < 2 ^ (k + m)) :
    x * 2 ^ m % 2 ^ (k + m) + x / 2 ^ k = x <<< m % 2 ^ (k + m) ||| x >>> k := by
  have hhi : x / 2 ^ k < 2 ^ m := by
    rwa [Nat.div_lt_iff_lt_mul (by positivity), ← pow_add, Nat.add_comm m k]
  have hlo : x * 2 ^ m % 2 ^ (k + m) = 2 ^ m * (x % 2 ^ k) := by
    rw [pow_add, Nat.mul_mod_mul_right, Nat.mul_comm]
  rw [Nat.shiftLeft_eq, Nat.shiftRight_eq_div_pow, hlo]
  exact Nat.two_pow_add_eq_or_of_lt hhi _

theorem rotl_eq_rotateLeft (v : Word) (n : Nat) : rotl v n = v.rotateLeft n := by
  have hlt : n % 32 < 32 := Nat.mod_lt _ (by decide)
  rcases Nat.eq_zero_or_pos (n % 32) with h | h
  · rw [rotl_of_mod_zero h, BitVec.rotateLeft_def, h, BitVec.ushiftRight_eq_zero (by decide)]
    simp
  · have key := nat_rotate_eq_or (x := v.toNat) (m := n % 32) (k := 32 - n % 32)
      (by rw [Nat.sub_add_cancel hlt.le]; exact v.isLt)
    rw [Nat.sub_add_cancel hlt.le, ← BitVec.toNat_rotateLeft] at key
    rw [rotl, if_neg (by omega), key, BitVec.ofNat_toNat, BitVec.setWidth_eq]

theorem rotr_eq_rotateRight (v : Word) (n : Nat) : rotr v n = v.rotateRight n := by
  have hlt : n % 32 < 32 := Nat.mod_lt _ (by decide)
  rcases Nat.eq_zero_or_pos (n % 32) with h | h
  · rw [rotr_of_mod_zero h, BitVec.rotateRight_def, h, BitVec.shiftLeft_eq_zero (by decide)]
    simp
  · have key := nat_rotate_eq_or (x := v.toNat) (m := 32 - n % 32) (k := n % 32)
      (by rw [Nat.add_sub_cancel' hlt.le]; exact v.isLt)
    rw [Nat.add_sub_cancel' hlt.le, Nat.lor_comm, ← BitVec.toNat_rotateRight] at key
    have hmul : v.toNat * 2 ^ (32 - n % 32) % 2 ^ 32 = v.toNat % 2 ^ (n % 32) * 2 ^ (32 - n % 32) := by
      rw [← Nat.mul_mod_mul_right, ← pow_add, Nat.add_sub_cancel' hlt.le]
    rw [rotr, if_neg (by omega), Nat.add_comm, ← hmul, key, BitVec.ofNat_toNat, BitVec.setWidth_eq]

/-- Bit `i` of a left rotation comes from `n` places below it, around the word (rule R92). -/
theorem rotl_getLsbD (v : Word) (n : Nat) {i : Nat} (hi : i < 32) :
    (rotl v n).getLsbD i = v.getLsbD ((i + (32 - n % 32)) % 32) := by
  have hlt : n % 32 < 32 := Nat.mod_lt _ (by decide)
  rw [rotl_eq_rotateLeft, BitVec.getLsbD_rotateLeft]
  by_cases h : i < n % 32
  · rw [decide_eq_true h, cond_true]
    congr 1
    omega
  · rw [decide_eq_false h, cond_false, decide_eq_true hi, Bool.true_and]
    congr 1
    omega

/-- Bit `i` of a right rotation comes from `n` places above it, around the word (rule R93). -/
theorem rotr_getLsbD (v : Word) (n : Nat) {i : Nat} (hi : i < 32) :
    (rotr v n).getLsbD i = v.getLsbD ((i + n) % 32) := by
  have hlt : n % 32 < 32 := Nat.mod_lt _ (by decide)
  rw [rotr_eq_rotateRight, BitVec.getLsbD_rotateRight]
  by_cases h : i < 32 - n % 32
  · rw [decide_eq_true h, cond_true]
    congr 1
    omega
  · rw [decide_eq_false h, cond_false, decide_eq_true hi, Bool.true_and]
    congr 1
    omega

/-- A right rotation undoes the left rotation by the same amount (rule R94 item 3). -/
theorem rotr_rotl (v : Word) (n : Nat) : rotr (rotl v n) n = v := by
  apply BitVec.eq_of_getLsbD_eq
  intro i hi
  rw [rotr_getLsbD _ _ hi, rotl_getLsbD _ _ (Nat.mod_lt _ (by decide))]
  congr 1
  omega

/-- A left rotation undoes the right rotation by the same amount (rule R94 item 3). -/
theorem rotl_rotr (v : Word) (n : Nat) : rotl (rotr v n) n = v := by
  apply BitVec.eq_of_getLsbD_eq
  intro i hi
  rw [rotl_getLsbD _ _ hi, rotr_getLsbD _ _ (Nat.mod_lt _ (by decide))]
  congr 1
  omega

end Sys2Proof.Machine
end

