-- ==== Sys2Proof/Laws/State.lean ====
section
/-! SUPPORT. One lemma for each field of the state under each shared update, true by `rfl`, so that no later proof
unfolds a record update; and the same for the parts of the data registers. -/

namespace Sys2Proof.Machine

/-! ### State.acceptFlags -/

@[simp] theorem State.acceptFlags_regs (s : State) : s.acceptFlags.regs = s.regs := rfl
@[simp] theorem State.acceptFlags_opr (s : State) : s.acceptFlags.opr = s.opr := rfl
@[simp] theorem State.acceptFlags_busy (s : State) : s.acceptFlags.busy = true := rfl
@[simp] theorem State.acceptFlags_bv (s : State) : s.acceptFlags.bv = false := rfl
@[simp] theorem State.acceptFlags_sv (s : State) : s.acceptFlags.sv = false := rfl
@[simp] theorem State.acceptFlags_seq (s : State) : s.acceptFlags.seq = s.seq := rfl
@[simp] theorem State.acceptFlags_rotV (s : State) : s.acceptFlags.rotV = s.rotV := rfl
@[simp] theorem State.acceptFlags_rotAmt (s : State) : s.acceptFlags.rotAmt = s.rotAmt := rfl
@[simp] theorem State.acceptFlags_rotDir (s : State) : s.acceptFlags.rotDir = s.rotDir := rfl
@[simp] theorem State.acceptFlags_host (s : State) : s.acceptFlags.host = s.host := rfl
@[simp] theorem State.acceptFlags_draws (s : State) : s.acceptFlags.draws = s.draws := rfl

/-! ### State.resetFlags -/

@[simp] theorem State.resetFlags_regs (s : State) : s.resetFlags.regs = s.regs := rfl
@[simp] theorem State.resetFlags_opr (s : State) : s.resetFlags.opr = s.opr := rfl
@[simp] theorem State.resetFlags_busy (s : State) : s.resetFlags.busy = false := rfl
@[simp] theorem State.resetFlags_bv (s : State) : s.resetFlags.bv = false := rfl
@[simp] theorem State.resetFlags_sv (s : State) : s.resetFlags.sv = false := rfl
@[simp] theorem State.resetFlags_seq (s : State) : s.resetFlags.seq = s.seq := rfl
@[simp] theorem State.resetFlags_rotV (s : State) : s.resetFlags.rotV = s.rotV := rfl
@[simp] theorem State.resetFlags_rotAmt (s : State) : s.resetFlags.rotAmt = s.rotAmt := rfl
@[simp] theorem State.resetFlags_rotDir (s : State) : s.resetFlags.rotDir = s.rotDir := rfl
@[simp] theorem State.resetFlags_host (s : State) : s.resetFlags.host = s.host := rfl
@[simp] theorem State.resetFlags_draws (s : State) : s.resetFlags.draws = s.draws := rfl

/-! ### State.completeFlags -/

@[simp] theorem State.completeFlags_regs (s : State) : s.completeFlags.regs = s.regs := rfl
@[simp] theorem State.completeFlags_opr (s : State) : s.completeFlags.opr = s.opr := rfl
@[simp] theorem State.completeFlags_busy (s : State) : s.completeFlags.busy = false := rfl
@[simp] theorem State.completeFlags_bv (s : State) :
    s.completeFlags.bv = (s.bv || s.opr == Op.encrypt.code || s.opr == Op.decrypt.code) := rfl
@[simp] theorem State.completeFlags_sv (s : State) : s.completeFlags.sv = (s.sv || s.opr == Op.expand.code) := rfl
@[simp] theorem State.completeFlags_seq (s : State) : s.completeFlags.seq = s.seq := rfl
@[simp] theorem State.completeFlags_rotV (s : State) : s.completeFlags.rotV = s.rotV := rfl
@[simp] theorem State.completeFlags_rotAmt (s : State) : s.completeFlags.rotAmt = s.rotAmt := rfl
@[simp] theorem State.completeFlags_rotDir (s : State) : s.completeFlags.rotDir = s.rotDir := rfl
@[simp] theorem State.completeFlags_host (s : State) : s.completeFlags.host = s.host := rfl
@[simp] theorem State.completeFlags_draws (s : State) : s.completeFlags.draws = s.draws := rfl

/-! ### driveRotator -/

@[simp] theorem driveRotator_regs (d : BitVec 1) (v : Word) (n : BitVec 8) (s : State) :
    (driveRotator d v n s).regs = s.regs := rfl
@[simp] theorem driveRotator_opr (d : BitVec 1) (v : Word) (n : BitVec 8) (s : State) :
    (driveRotator d v n s).opr = s.opr := rfl
@[simp] theorem driveRotator_busy (d : BitVec 1) (v : Word) (n : BitVec 8) (s : State) :
    (driveRotator d v n s).busy = s.busy := rfl
@[simp] theorem driveRotator_bv (d : BitVec 1) (v : Word) (n : BitVec 8) (s : State) :
    (driveRotator d v n s).bv = s.bv := rfl
@[simp] theorem driveRotator_sv (d : BitVec 1) (v : Word) (n : BitVec 8) (s : State) :
    (driveRotator d v n s).sv = s.sv := rfl
@[simp] theorem driveRotator_seq (d : BitVec 1) (v : Word) (n : BitVec 8) (s : State) :
    (driveRotator d v n s).seq = s.seq := rfl
@[simp] theorem driveRotator_rotV (d : BitVec 1) (v : Word) (n : BitVec 8) (s : State) :
    (driveRotator d v n s).rotV = v := rfl
@[simp] theorem driveRotator_rotAmt (d : BitVec 1) (v : Word) (n : BitVec 8) (s : State) :
    (driveRotator d v n s).rotAmt = n := rfl
@[simp] theorem driveRotator_rotDir (d : BitVec 1) (v : Word) (n : BitVec 8) (s : State) :
    (driveRotator d v n s).rotDir = d := rfl
@[simp] theorem driveRotator_host (d : BitVec 1) (v : Word) (n : BitVec 8) (s : State) :
    (driveRotator d v n s).host = s.host := rfl
@[simp] theorem driveRotator_draws (d : BitVec 1) (v : Word) (n : BitVec 8) (s : State) :
    (driveRotator d v n s).draws = s.draws := rfl

/-! ### accept -/

@[simp] theorem accept_regs (o : Op) (k : Key) (b : Block) (s : State) :
    (accept o k b s).regs = { s.regs with k := k, blk := b } := rfl
@[simp] theorem accept_opr (o : Op) (k : Key) (b : Block) (s : State) : (accept o k b s).opr = o.code := rfl
@[simp] theorem accept_busy (o : Op) (k : Key) (b : Block) (s : State) : (accept o k b s).busy = true := rfl
@[simp] theorem accept_bv (o : Op) (k : Key) (b : Block) (s : State) : (accept o k b s).bv = false := rfl
@[simp] theorem accept_sv (o : Op) (k : Key) (b : Block) (s : State) : (accept o k b s).sv = false := rfl
@[simp] theorem accept_seq (o : Op) (k : Key) (b : Block) (s : State) :
    (accept o k b s).seq = { edgesLeft := latency o, todo := commandSteps o } := rfl
@[simp] theorem accept_rotV (o : Op) (k : Key) (b : Block) (s : State) : (accept o k b s).rotV = s.rotV := rfl
@[simp] theorem accept_rotAmt (o : Op) (k : Key) (b : Block) (s : State) : (accept o k b s).rotAmt = s.rotAmt := rfl
@[simp] theorem accept_rotDir (o : Op) (k : Key) (b : Block) (s : State) : (accept o k b s).rotDir = s.rotDir := rfl
@[simp] theorem accept_host (o : Op) (k : Key) (b : Block) (s : State) : (accept o k b s).host = s.host := rfl
@[simp] theorem accept_draws (o : Op) (k : Key) (b : Block) (s : State) : (accept o k b s).draws = s.draws := rfl

/-! ### complete -/

@[simp] theorem complete_regs (s : State) :
    (complete s).regs = deliver s.opr (runSteps s.seq.todo s.regs) (freeRegs s.draws) := rfl
@[simp] theorem complete_opr (s : State) : (complete s).opr = s.opr := rfl
@[simp] theorem complete_busy (s : State) : (complete s).busy = false := rfl
@[simp] theorem complete_bv (s : State) :
    (complete s).bv = (s.bv || s.opr == Op.encrypt.code || s.opr == Op.decrypt.code) := rfl
@[simp] theorem complete_sv (s : State) : (complete s).sv = (s.sv || s.opr == Op.expand.code) := rfl
@[simp] theorem complete_seq (s : State) : (complete s).seq = Sequencer.idle := rfl
@[simp] theorem complete_rotV (s : State) : (complete s).rotV = s.rotV := rfl
@[simp] theorem complete_rotAmt (s : State) : (complete s).rotAmt = s.rotAmt := rfl
@[simp] theorem complete_rotDir (s : State) : (complete s).rotDir = s.rotDir := rfl
@[simp] theorem complete_host (s : State) : (complete s).host = s.host := rfl
@[simp] theorem complete_draws (s : State) : (complete s).draws = s.draws + 1 := rfl

/-! ### advance -/

@[simp] theorem advance_regs (s : State) :
    (advance s).regs = runSteps (s.seq.todo.take (Config.microStepsAtEdge s.opr s.seq.edgesLeft)) s.regs := rfl
@[simp] theorem advance_opr (s : State) : (advance s).opr = s.opr := rfl
@[simp] theorem advance_busy (s : State) : (advance s).busy = s.busy := rfl
@[simp] theorem advance_bv (s : State) : (advance s).bv = s.bv := rfl
@[simp] theorem advance_sv (s : State) : (advance s).sv = s.sv := rfl
@[simp] theorem advance_seq (s : State) :
    (advance s).seq =
      { edgesLeft := s.seq.edgesLeft - 1, todo := s.seq.todo.drop (Config.microStepsAtEdge s.opr s.seq.edgesLeft) } := rfl
@[simp] theorem advance_rotV (s : State) : (advance s).rotV = s.rotV := rfl
@[simp] theorem advance_rotAmt (s : State) : (advance s).rotAmt = s.rotAmt := rfl
@[simp] theorem advance_rotDir (s : State) : (advance s).rotDir = s.rotDir := rfl
@[simp] theorem advance_host (s : State) : (advance s).host = s.host := rfl
@[simp] theorem advance_draws (s : State) : (advance s).draws = s.draws := rfl

/-! ### resetEdge -/

@[simp] theorem resetEdge_regs (s : State) : (resetEdge s).regs = freeRegs s.draws := rfl
@[simp] theorem resetEdge_opr (s : State) : (resetEdge s).opr = Config.freeCode s.draws := rfl
@[simp] theorem resetEdge_busy (s : State) : (resetEdge s).busy = false := rfl
@[simp] theorem resetEdge_bv (s : State) : (resetEdge s).bv = false := rfl
@[simp] theorem resetEdge_sv (s : State) : (resetEdge s).sv = false := rfl
@[simp] theorem resetEdge_seq (s : State) : (resetEdge s).seq = Sequencer.idle := rfl
@[simp] theorem resetEdge_rotV (s : State) : (resetEdge s).rotV = s.rotV := rfl
@[simp] theorem resetEdge_rotAmt (s : State) : (resetEdge s).rotAmt = s.rotAmt := rfl
@[simp] theorem resetEdge_rotDir (s : State) : (resetEdge s).rotDir = s.rotDir := rfl
@[simp] theorem resetEdge_host (s : State) : (resetEdge s).host = s.host := rfl
@[simp] theorem resetEdge_draws (s : State) : (resetEdge s).draws = s.draws + 1 := rfl

/-! ### Parts of the data registers -/

@[simp] theorem Regs.pair_withPair (r : Regs) (p : Word × Word) : (r.withPair p).pair = p := rfl
@[simp] theorem Regs.s_withPair (r : Regs) (p : Word × Word) : (r.withPair p).s = r.s := rfl
@[simp] theorem Regs.k_withPair (r : Regs) (p : Word × Word) : (r.withPair p).k = r.k := rfl
@[simp] theorem Regs.blk_withPair (r : Regs) (p : Word × Word) : (r.withPair p).blk = r.blk := rfl
@[simp] theorem Regs.mixer_withMixer (r : Regs) (m : Mixer) : (r.withMixer m).mixer = m := rfl
@[simp] theorem Regs.s_withMixer (r : Regs) (m : Mixer) : (r.withMixer m).s = m.s := rfl
@[simp] theorem Regs.blk_withMixer (r : Regs) (m : Mixer) : (r.withMixer m).blk = r.blk := rfl

@[simp] theorem Regs.withMixer_withMixer (r : Regs) (m m' : Mixer) :
    (r.withMixer m).withMixer m' = r.withMixer m' := rfl

/-! ### Outputs -/

theorem State.blockOut_of_bv {s : State} (h : s.bv = true) : s.blockOut = some #v[s.regs.a, s.regs.b] := if_pos h
theorem State.blockOut_of_not_bv {s : State} (h : s.bv = false) : s.blockOut = none := if_neg (by simp [h])
theorem State.schedOut_of_sv {s : State} (h : s.sv = true) : s.schedOut = some s.regs.s := if_pos h
theorem State.schedOut_of_not_sv {s : State} (h : s.sv = false) : s.schedOut = none := if_neg (by simp [h])
@[simp] theorem rotY_driveRotator (d : BitVec 1) (v : Word) (n : BitVec 8) (s : State) :
    (driveRotator d v n s).rotY = rotator d v n := rfl
@[simp] theorem blockOut_driveRotator (d : BitVec 1) (v : Word) (n : BitVec 8) (s : State) :
    (driveRotator d v n s).blockOut = s.blockOut := rfl
@[simp] theorem schedOut_driveRotator (d : BitVec 1) (v : Word) (n : BitVec 8) (s : State) :
    (driveRotator d v n s).schedOut = s.schedOut := rfl

end Sys2Proof.Machine
end

