-- ==== Sys2Proof/Laws/Cipher.lean ====
section
/-! SUPPORT. What the work lists of rule R29 compute, as the pure functions of rules R121, R130 and R140, and that each
inverse round undoes its round (rule R143). -/

namespace Sys2Proof.Machine

@[simp] theorem runSteps_nil (r : Regs) : runSteps [] r = r := rfl

@[simp] theorem runSteps_cons (m : MicroStep) (l : List MicroStep) (r : Regs) :
    runSteps (m :: l) r = runSteps l (microStep r m) := rfl

theorem runSteps_append (l l' : List MicroStep) (r : Regs) :
    runSteps (l ++ l') r = runSteps l' (runSteps l r) := List.foldl_append

theorem runSteps_take_drop (n : Nat) (l : List MicroStep) (r : Regs) :
    runSteps (l.drop n) (runSteps (l.take n) r) = runSteps l r := by
  rw [← runSteps_append, List.take_append_drop]

theorem amountOf_eq_mod (x : Word) : amountOf x = x.toNat % 32 := by
  simp [amountOf, BitVec.extractLsb'_toNat]

/-! ## Initialisation (rule R112) -/

theorem runSteps_init (l : List (Fin 26)) (r : Regs) :
    runSteps (l.map .init) r = { r with s := l.foldl initStep r.s } := by
  induction l generalizing r with
  | nil => rfl
  | cons i l ih => rw [List.map_cons, runSteps_cons, ih]; rfl

theorem initStep_zero (s : Schedule) (h : 0 < 26) : initStep s ⟨0, h⟩ = s.set 0 Config.p32 := rfl

theorem initStep_succ (s : Schedule) (m : Nat) (h : m + 1 < 26) :
    initStep s ⟨m + 1, h⟩ = s.set (m + 1) (s[m] + Config.q32) := dif_neg (Nat.succ_ne_zero m)

/-- After the first `n` `INIT` steps, the first `n` words of `S` are those of the recurrence, whatever `S` held. -/
theorem initStep_take (s : Schedule) (n : Nat) (hn : n ≤ 26) (i : Nat) (hi : i < n) :
    (((List.finRange 26).take n).foldl initStep s)[i] = initWord i := by
  induction n generalizing i with
  | zero => omega
  | succ n ih =>
    have hlen : n < (List.finRange 26).length := by rw [List.length_finRange]; omega
    rw [← List.take_concat_get' _ n hlen, List.foldl_append, List.foldl_cons, List.foldl_nil, List.getElem_finRange,
      Fin.cast_mk]
    cases n with
    | zero =>
      obtain rfl : i = 0 := by omega
      simp only [initStep_zero, Vector.getElem_set_self, initWord]
    | succ m =>
      simp only [initStep_succ]
      by_cases hin : i = m + 1
      · subst hin
        rw [Vector.getElem_set_self, ih (by omega) m (by omega), initWord]
      · rw [Vector.getElem_set_ne _ _ (by omega), ih (by omega) i (by omega)]

theorem foldl_initStep (s : Schedule) : (List.finRange 26).foldl initStep s = initSchedule := by
  apply Vector.ext
  intro i hi
  have := initStep_take s 26 le_rfl i hi
  rw [List.take_of_length_le (by simp)] at this
  rw [this, initSchedule, Vector.getElem_ofFn]

/-! ## Mixing (rules R114 to R116) -/

/-- Mixing steps other than step 0 are the pure mixing steps on the mixer part of the registers. -/
theorem runSteps_mix (l : List (Fin 78)) (hl : ∀ t ∈ l, t.val ≠ 0) (r : Regs) :
    runSteps (l.map .mix) r = r.withMixer (l.foldl mixStep r.mixer) := by
  induction l generalizing r with
  | nil => rfl
  | cons t l ih =>
    have ht : r.startMix t = r := if_neg (hl t (by simp))
    rw [List.map_cons, runSteps_cons, ih (fun t h => hl t (by simp [h])), microStep, ht]
    rfl

/-- All 78 mixing steps: step 0 starts from zero accumulators (rule R114). -/
theorem runSteps_mix_all (r : Regs) :
    runSteps ((List.finRange 78).map .mix) r =
      r.withMixer ((List.finRange 78).foldl mixStep { s := r.s, k := r.k, a := 0, b := 0 }) := by
  have h0 : microStep r (.mix 0) = r.withMixer (mixStep { s := r.s, k := r.k, a := 0, b := 0 } 0) := rfl
  rw [List.finRange_succ, List.map_cons, runSteps_cons, runSteps_mix _ (by simp), h0, Regs.mixer_withMixer,
    List.foldl_cons, Regs.withMixer_withMixer]

/-- The key schedule's work list (rule R29) leaves the registers as the 78 mixing steps from the initial schedule and
the key in `K` leave them; `BLK` is untouched. -/
theorem runSteps_schedule (r : Regs) :
    runSteps scheduleSteps r = r.withMixer ((List.finRange 78).foldl mixStep (mixStart r.k)) := by
  rw [scheduleSteps, runSteps_append, runSteps_init, foldl_initStep, runSteps_mix_all]
  simp only [Regs.withMixer, mixStart]

theorem runSteps_schedule_s (r : Regs) : (runSteps scheduleSteps r).s = ksa r.k := by
  rw [runSteps_schedule, Regs.s_withMixer, ksa]

theorem runSteps_schedule_blk (r : Regs) : (runSteps scheduleSteps r).blk = r.blk := by
  rw [runSteps_schedule, Regs.blk_withMixer]

/-- A fold over the first `t + 1` numbers is one more step after the fold over the first `t`. -/
theorem foldl_take_succ {α : Type} {n : Nat} (f : α → Fin n → α) (a : α) (t : Nat) (h : t < n) :
    ((List.finRange n).take (t + 1)).foldl f a = f (((List.finRange n).take t).foldl f a) ⟨t, h⟩ := by
  have hlen : t < (List.finRange n).length := by simpa
  rw [← List.take_concat_get' _ t hlen, List.foldl_append]
  simp

theorem mixStep_a (m : Mixer) (t : Fin 78) :
    (mixStep m t).a = rotl (m.s[t.val % 26] + m.a + m.b) Config.rotS := rfl

theorem mixStep_b (m : Mixer) (t : Fin 78) :
    (mixStep m t).b = rotl (m.k[t.val % 4] + (mixStep m t).a + m.b) (amountOf ((mixStep m t).a + m.b)) := rfl

theorem mixStep_s (m : Mixer) (t : Fin 78) :
    (mixStep m t).s = m.s.set (t.val % 26) (mixStep m t).a (Nat.mod_lt _ (by decide)) := rfl

theorem mixStep_k (m : Mixer) (t : Fin 78) :
    (mixStep m t).k = m.k.set (t.val % 4) (mixStep m t).b (Nat.mod_lt _ (by decide)) := rfl

/-! ## Rounds (rules R133, R143) -/

theorem encRound_fst (s : Schedule) (a b : Word) (i : Fin 12) :
    (encRound s (a, b) i).1 = rotl (a ^^^ b) (amountOf b) + roundKeyA s i := rfl

theorem encRound_snd (s : Schedule) (a b : Word) (i : Fin 12) :
    (encRound s (a, b) i).2 =
      rotl (b ^^^ (encRound s (a, b) i).1) (amountOf (encRound s (a, b) i).1) + roundKeyB s i := rfl

theorem decRound_snd (s : Schedule) (a b : Word) (i : Fin 12) :
    (decRound s (a, b) i).2 = rotr (b - roundKeyB s i) (amountOf a) ^^^ a := rfl

theorem decRound_fst (s : Schedule) (a b : Word) (i : Fin 12) :
    (decRound s (a, b) i).1 =
      rotr (a - roundKeyA s i) (amountOf (decRound s (a, b) i).2) ^^^ (decRound s (a, b) i).2 := rfl

theorem runSteps_round (l : List (Fin 12)) (r : Regs) :
    runSteps (l.map .round) r = r.withPair (l.foldl (encRound r.s) r.pair) := by
  induction l generalizing r with
  | nil => rfl
  | cons i l ih => rw [List.map_cons, runSteps_cons, ih]; rfl

theorem runSteps_unround (l : List (Fin 12)) (r : Regs) :
    runSteps (l.map .unround) r = r.withPair (l.foldl (decRound r.s) r.pair) := by
  induction l generalizing r with
  | nil => rfl
  | cons i l ih => rw [List.map_cons, runSteps_cons, ih]; rfl

/-- A sequence that starts with the whitened block and follows the rounds is the fold of the rounds, at each of its
points (rule R130, with the spec's own round numbers). -/
theorem foldl_encRound (S : Schedule) (blk : Block) (A B : Nat → Word) (hA : A 0 = blk[0] + S[0])
    (hB : B 0 = blk[1] + S[1])
    (h : ∀ i, 1 ≤ i → (h : i ≤ 12) →
      A i = rotl (A (i - 1) ^^^ B (i - 1)) ((B (i - 1)).toNat % 32) + S[2 * i] ∧
      B i = rotl (B (i - 1) ^^^ A i) ((A i).toNat % 32) + S[2 * i + 1])
    (t : Nat) (ht : t ≤ 12) :
    ((List.finRange 12).take t).foldl (encRound S) (whiten S blk) = (A t, B t) := by
  induction t with
  | zero => rw [hA, hB, List.take_zero, List.foldl_nil, whiten]
  | succ t ih =>
    rw [foldl_take_succ _ _ t (by omega), ih (by omega)]
    obtain ⟨h1, h2⟩ := h (t + 1) (by omega) ht
    have e1 : (encRound S (A t, B t) ⟨t, by omega⟩).1 = A (t + 1) := by
      rw [h1, encRound_fst, amountOf_eq_mod, roundKeyA]
      simp only [Nat.add_sub_cancel]
    have e2 : (encRound S (A t, B t) ⟨t, by omega⟩).2 = B (t + 1) := by
      rw [h2, encRound_snd, e1, amountOf_eq_mod, roundKeyB]
      simp only [Nat.add_sub_cancel]
    rw [← e1, ← e2]

/-- A sequence that starts, at index 12, with the block and follows the inverse rounds downwards is the fold of the
inverse rounds, at each of its points (rule R140). -/
theorem foldl_decRound (S : Schedule) (blk : Block) (A B : Nat → Word) (hA : A 12 = blk[0]) (hB : B 12 = blk[1])
    (h : ∀ i, 1 ≤ i → (h : i ≤ 12) →
      B (i - 1) = rotr (B i - S[2 * i + 1]) ((A i).toNat % 32) ^^^ A i ∧
      A (i - 1) = rotr (A i - S[2 * i]) ((B (i - 1)).toNat % 32) ^^^ B (i - 1))
    (t : Nat) (ht : t ≤ 12) :
    ((List.finRange 12).take t).foldl (fun p i => decRound S p i.rev) (blk[0], blk[1]) =
      (A (12 - t), B (12 - t)) := by
  induction t with
  | zero => rw [← hA, ← hB, List.take_zero, List.foldl_nil]
  | succ t ih =>
    rw [foldl_take_succ _ _ t (by omega), ih (by omega)]
    obtain ⟨h1, h2⟩ := h (12 - t) (by omega) (by omega)
    have h12 : 12 - t - 1 = 12 - (t + 1) := by omega
    rw [h12, ← amountOf_eq_mod] at h1 h2
    have hr : (Fin.rev (⟨t, by omega⟩ : Fin 12)).val + 1 = 12 - t := by
      rw [Fin.val_rev]
      show 12 - (t + 1) + 1 = _
      omega
    generalize Fin.rev (⟨t, by omega⟩ : Fin 12) = i at *
    have e2 : (decRound S (A (12 - t), B (12 - t)) i).2 = B (12 - (t + 1)) := by
      rw [h1, decRound_snd, roundKeyB]
      simp only [hr]
    have e1 : (decRound S (A (12 - t), B (12 - t)) i).1 = A (12 - (t + 1)) := by
      rw [h2, decRound_fst, e2, roundKeyA]
      simp only [hr]
    rw [← e1, ← e2]

theorem encryptWith_of_foldl {S : Schedule} {blk : Block} {p : Word × Word}
    (h : (List.finRange 12).foldl (encRound S) (whiten S blk) = p) : encryptWith S blk = #v[p.1, p.2] := by
  simp only [encryptWith, h]

theorem decryptWith_of_foldl {S : Schedule} {blk : Block} {p : Word × Word}
    (h : (List.finRange 12).foldl (fun q i => decRound S q i.rev) (blk[0], blk[1]) = p) :
    decryptWith S blk = #v[p.1 - S[0], p.2 - S[1]] := by
  have hrev : (List.finRange 12).reverse = (List.finRange 12).map Fin.rev := by decide
  simp only [decryptWith, hrev, List.foldl_map, h, unwhiten]

/-- The work list of `EXPAND` delivers `KSA` of the key in `K`. -/
theorem runSteps_expand (r : Regs) : (runSteps (commandSteps .expand) r).s = ksa r.k := runSteps_schedule_s r

/-- The work list of `ENCRYPT` delivers `ENCRYPT` of the operands in `BLK` and `K`, whatever else the registers held. -/
theorem runSteps_encrypt (r : Regs) :
    (runSteps (commandSteps .encrypt) r).pair = ((encrypt r.blk r.k)[0], (encrypt r.blk r.k)[1]) := by
  rw [commandSteps, runSteps_append, runSteps_cons, runSteps_round, Regs.pair_withPair, microStep, Regs.s_withPair,
    Regs.pair_withPair, runSteps_schedule_s, runSteps_schedule_blk]
  rfl

/-- The work list of `DECRYPT` delivers `DECRYPT` of the operands in `BLK` and `K`. -/
theorem runSteps_decrypt (r : Regs) :
    (runSteps (commandSteps .decrypt) r).pair = ((decrypt r.blk r.k)[0], (decrypt r.blk r.k)[1]) := by
  rw [commandSteps, runSteps_append, runSteps_append, runSteps_cons, runSteps_nil, runSteps_cons, runSteps_unround,
    microStep, microStep, Regs.pair_withPair, Regs.pair_withPair, Regs.s_withPair, Regs.s_withPair,
    Regs.pair_withPair, runSteps_schedule_s, runSteps_schedule_blk]
  rfl

/-! ## Inverse rounds (rules R143, R144) -/

theorem decRound_encRound (s : Schedule) (p : Word × Word) (i : Fin 12) : decRound s (encRound s p i) i = p := by
  ext1
  all_goals simp [decRound, encRound, rotr_rotl]

theorem encRound_decRound (s : Schedule) (p : Word × Word) (i : Fin 12) : encRound s (decRound s p i) i = p := by
  ext1
  all_goals simp [decRound, encRound, rotl_rotr]

/-- Undoing each step of a fold, in reverse order, undoes the fold. -/
theorem foldl_reverse_undo {α β : Type} {f g : α → β → α} (h : ∀ a b, g (f a b) b = a) (l : List β) (a : α) :
    l.reverse.foldl g (l.foldl f a) = a := by
  induction l generalizing a with
  | nil => rfl
  | cons b l ih => simp only [List.reverse_cons, List.foldl_append, List.foldl_cons, List.foldl_nil, ih, h]

theorem unwhiten_whiten (s : Schedule) (blk : Block) : unwhiten s (whiten s blk) = (blk[0], blk[1]) := by
  ext1
  all_goals simp [whiten, unwhiten]

theorem whiten_unwhiten (s : Schedule) (p : Word × Word) :
    whiten s #v[(unwhiten s p).1, (unwhiten s p).2] = p := by
  ext1
  all_goals simp [whiten, unwhiten]

theorem Block.eta (blk : Block) : #v[blk[0], blk[1]] = blk := by
  apply Vector.ext
  intro i hi
  have : i = 0 ∨ i = 1 := by omega
  rcases this with rfl | rfl <;> rfl

end Sys2Proof.Machine
end

