-- ==== Sys2Proof/Laws/Encoding.lean ====
section
/-! SUPPORT. The flat buses carry the words they are made of (rule R27), and what the decoder finds in the wires of the
encoder, and the other way round (rules R70 to R73). -/

namespace Sys2Proof

theorem busNat_lt : ∀ l : List Word, busNat l < 2 ^ (32 * l.length)
  | [] => by simp [busNat]
  | w :: ws => by
    have ih := busNat_lt ws
    have hw := w.isLt
    rw [List.length_cons, Nat.mul_add, pow_add, busNat]
    omega

/-- Word `j` of the number on a flat bus. -/
theorem busNat_word : ∀ (l : List Word) (j : Nat) (h : j < l.length),
    busNat l / 2 ^ (32 * j) % 2 ^ 32 = (l[j]).toNat
  | w :: ws, 0, _ => by
    have hw := w.isLt
    simp only [busNat, List.getElem_cons_zero]
    omega
  | w :: ws, j + 1, h => by
    have hw := w.isLt
    rw [List.getElem_cons_succ, ← busNat_word ws j (by simpa using h), busNat,
      show 32 * (j + 1) = 32 + 32 * j by omega, pow_add, ← Nat.div_div_eq_div_mul]
    congr 2
    omega

theorem flatBus_word {n : Nat} (v : Vector Word n) (j : Nat) (h : j < n) :
    (flatBus v).extractLsb' (32 * j) 32 = v[j] := by
  apply BitVec.eq_of_toNat_eq
  have hb := busNat_lt v.toList
  rw [Vector.length_toList] at hb
  rw [BitVec.extractLsb'_toNat, Nat.shiftRight_eq_div_pow, flatBus, BitVec.toNat_ofNat, Nat.mod_eq_of_lt hb,
    busNat_word v.toList j (by simpa using h), Vector.getElem_toList]

theorem flatBus_getLsbD {n : Nat} (v : Vector Word n) (i : Nat) (h : i < 32 * n) :
    (flatBus v).getLsbD i = (v[i / 32]).getLsbD (i % 32) := by
  rw [← flatBus_word v (i / 32) (by omega), BitVec.getLsbD_extractLsb', decide_eq_true (by omega), Bool.true_and]
  congr 1
  omega

/-! ## The wires of a command -/

theorem commandWires_getLsbD (op : BitVec 2) (key : Key) (blk : Block) (i : Nat) :
    (commandWires op key blk).getLsbD i =
      if i < 2 then op.getLsbD i
      else if i < 130 then (flatBus key).getLsbD (i - 2)
      else (flatBus blk).getLsbD (i - 130) := by
  simp only [commandWires, blockBus, keyBus]
  rw [BitVec.getLsbD_append, BitVec.getLsbD_append]
  by_cases h2 : i < 2
  · simp [h2]
  · by_cases h130 : i < 130
    · simp [h2, h130, show i - 2 < 128 by omega]
    · simp [h2, h130, show ¬ i - 2 < 128 by omega, show i - 2 - 128 = i - 130 by omega]

theorem op_of_commandWires (op : BitVec 2) (key : Key) (blk : Block) :
    (commandWires op key blk).extractLsb' 0 2 = op := by
  apply BitVec.eq_of_getLsbD_eq
  intro i hi
  simp [commandWires_getLsbD, hi]

theorem key_of_commandWires (op : BitVec 2) (key : Key) (blk : Block) :
    (Vector.ofFn fun j : Fin 4 => busWord (commandWires op key blk) 2 j) = key := by
  apply Vector.ext
  intro j hj
  rw [Vector.getElem_ofFn, ← flatBus_word key j hj]
  apply BitVec.eq_of_getLsbD_eq
  intro i hi
  simp only [busWord, BitVec.getLsbD_extractLsb', commandWires_getLsbD, hi, decide_true, Bool.true_and]
  rw [if_neg (by omega), if_pos (by omega)]
  congr 1
  omega

theorem block_of_commandWires (op : BitVec 2) (key : Key) (blk : Block) :
    (Vector.ofFn fun j : Fin 2 => busWord (commandWires op key blk) 130 j) = blk := by
  apply Vector.ext
  intro j hj
  rw [Vector.getElem_ofFn, ← flatBus_word blk j hj]
  apply BitVec.eq_of_getLsbD_eq
  intro i hi
  simp only [busWord, BitVec.getLsbD_extractLsb', commandWires_getLsbD, hi, decide_true, Bool.true_and]
  rw [if_neg (by omega), if_neg (by omega), show 130 + 32 * j + i - 130 = 32 * j + i by omega]

theorem decode_commandWires (op : BitVec 2) (key : Key) (blk : Block) :
    decode (.cmd (commandWires op key blk)) = decodeCommand op key blk := by
  rw [decode, op_of_commandWires, key_of_commandWires, block_of_commandWires]

/-- Any row of 194 wires is the wires of the command tuple that the decoder reads from it. -/
theorem commandWires_of_wires (w : BitVec 194) :
    commandWires (w.extractLsb' 0 2) (Vector.ofFn fun j => busWord w 2 j) (Vector.ofFn fun j => busWord w 130 j) =
      w := by
  apply BitVec.eq_of_getLsbD_eq
  intro i hi
  rw [commandWires_getLsbD]
  split
  · next h => simp [h]
  · split
    · next h2 h130 =>
      rw [flatBus_getLsbD _ _ (by omega), Vector.getElem_ofFn]
      simp only [busWord, BitVec.getLsbD_extractLsb', Nat.mod_lt _ (show 32 > 0 by decide), decide_true, Bool.true_and]
      congr 1
      omega
    · next h2 h130 =>
      rw [flatBus_getLsbD _ _ (by omega), Vector.getElem_ofFn]
      simp only [busWord, BitVec.getLsbD_extractLsb', Nat.mod_lt _ (show 32 > 0 by decide), decide_true, Bool.true_and]
      rw [show 130 + 32 * ((i - 130) / 32) + (i - 130) % 32 = i by omega]

/-! ## The wires of a rotator operation -/

theorem rotatorWires_getLsbD (dir : BitVec 1) (v : Word) (amount : BitVec 8) (i : Nat) :
    (rotatorWires dir v amount).getLsbD i =
      if i < 1 then dir.getLsbD i else if i < 33 then v.getLsbD (i - 1) else amount.getLsbD (i - 33) := by
  simp only [rotatorWires]
  rw [BitVec.getLsbD_append, BitVec.getLsbD_append]
  by_cases h1 : i < 1
  · simp [h1]
  · by_cases h33 : i < 33
    · simp [h1, h33, show i - 1 < 32 by omega]
    · simp [h1, h33, show ¬ i - 1 < 32 by omega, show i - 1 - 32 = i - 33 by omega]

theorem decode_rotatorWires (dir : BitVec 1) (v : Word) (amount : BitVec 8) :
    decode (.rot (rotatorWires dir v amount)) = decodeRotator dir v amount := by
  rw [decode]
  congr 1
  all_goals
    apply BitVec.eq_of_getLsbD_eq
    intro i hi
    simp only [BitVec.getLsbD_extractLsb', rotatorWires_getLsbD, hi, decide_true, Bool.true_and]
  · rw [if_pos (by omega), Nat.zero_add]
  · rw [if_neg (by omega), if_pos (by omega), Nat.add_sub_cancel_left]
  · rw [if_neg (by omega), if_neg (by omega), Nat.add_sub_cancel_left]

/-- Any row of 41 wires is the wires of the rotator tuple that the decoder reads from it. -/
theorem rotatorWires_of_wires (w : BitVec 41) :
    rotatorWires (w.extractLsb' 0 1) (w.extractLsb' 1 32) (w.extractLsb' 33 8) = w := by
  apply BitVec.eq_of_getLsbD_eq
  intro i hi
  rw [rotatorWires_getLsbD]
  split
  · next h => simp [h]
  · split
    · simp only [BitVec.getLsbD_extractLsb', show i - 1 < 32 by omega, decide_true, Bool.true_and]
      congr 1
      omega
    · simp only [BitVec.getLsbD_extractLsb', show i - 33 < 8 by omega, decide_true, Bool.true_and]
      congr 1
      omega

/-! ## The two tables of operation codes -/

theorem Op.ofCode_code (o : Op) : Op.ofCode o.code = some o := by cases o <;> decide

theorem Op.ofCode_reserved : Op.ofCode 0b11#2 = none := by decide

theorem Op.code_of_ofCode {op : BitVec 2} {o : Op} (h : Op.ofCode op = some o) : o.code = op := by
  revert h
  revert op
  cases o <;> decide

theorem Op.code_injective {o o' : Op} (h : o.code = o'.code) : o = o' :=
  Option.some.inj (by rw [← ofCode_code, ← ofCode_code o', h])

theorem encode_decodeCommand (op : BitVec 2) (key : Key) (blk : Block) :
    encode (decodeCommand op key blk) = .cmd (commandWires op key blk) := by
  have hop : op = 0b00#2 ∨ op = 0b01#2 ∨ op = 0b10#2 ∨ op = 0b11#2 := by
    revert op
    decide
  rcases hop with rfl | rfl | rfl | rfl <;> rfl

theorem encode_decodeRotator (dir : BitVec 1) (v : Word) (amount : BitVec 8) :
    encode (decodeRotator dir v amount) = .rot (rotatorWires dir v amount) := by
  have hdir : dir = 0b0#1 ∨ dir = 0b1#1 := by
    revert dir
    decide
  rcases hdir with rfl | rfl <;> rfl

end Sys2Proof
end

