-- ==== Sys2Proof/Laws/Ops.lean ====
section
/-! SUPPORT. What each shared operation can do, said once: a clock edge, a command at the transaction level, waiting,
and each of them against the invariant of the core. -/

namespace Sys2Proof.Machine

/-! ## Clock edges -/

theorem clockEdge_reset {p : Pins} (h : p.rst = true) (s : State) :
    clockEdge p s = .next (resetEdge (driveRotator p.rotDir p.rotV p.rotAmt s)) := if_pos h

theorem clockEdge_busy {p : Pins} {s : State} (h : p.rst = false) (hb : s.busy = true) :
    clockEdge p s = .next (busyEdge (driveRotator p.rotDir p.rotV p.rotAmt s)) := by
  simp [clockEdge, h, hb]

theorem clockEdge_present {p : Pins} {s : State} (h : p.rst = false) (hb : s.busy = false) (hs : p.start = true) :
    clockEdge p s = presentEdge p.op p.key p.blockIn (driveRotator p.rotDir p.rotV p.rotAmt s) := by
  simp [clockEdge, h, hb, hs]

theorem clockEdge_idle {p : Pins} {s : State} (h : p.rst = false) (hb : s.busy = false) (hs : p.start = false) :
    clockEdge p s = .next (driveRotator p.rotDir p.rotV p.rotAmt s) := by
  simp [clockEdge, h, hb, hs]

theorem clockEdge_accept {op : Op} {p : Pins} {s : State} (h : p.presents op) (hb : s.busy = false) :
    clockEdge p s = .next (accept op p.key p.blockIn (driveRotator p.rotDir p.rotV p.rotAmt s)) := by
  obtain ⟨hr, hs, ho⟩ := h
  rw [clockEdge_present hr hb hs, presentEdge, ho, Op.ofCode_code]

/-- All that a clock edge can do when it has a next state. -/
theorem clockEdge_cases {p : Pins} {s t : State} (h : clockEdge p s = .next t) :
    let d := driveRotator p.rotDir p.rotV p.rotAmt s
    (p.rst = true ∧ t = resetEdge d) ∨
    (p.rst = false ∧ s.busy = true ∧ 1 < s.seq.edgesLeft ∧ t = advance d) ∨
    (p.rst = false ∧ s.busy = true ∧ s.seq.edgesLeft ≤ 1 ∧ t = complete d) ∨
    (∃ op, p.presents op ∧ s.busy = false ∧ t = accept op p.key p.blockIn d) ∨
    (p.quiet ∧ s.busy = false ∧ t = d) := by
  intro d
  cases hr : p.rst with
  | true =>
    rw [clockEdge_reset hr] at h
    exact .inl ⟨rfl, (Host.Outcome.next.inj h).symm⟩
  | false =>
    right
    cases hb : s.busy with
    | true =>
      rw [clockEdge_busy hr hb] at h
      have ht := (Host.Outcome.next.inj h).symm
      by_cases hl : s.seq.edgesLeft ≤ 1
      · exact .inr (.inl ⟨rfl, rfl, hl, ht.trans (if_pos hl)⟩)
      · exact .inl ⟨rfl, rfl, by omega, ht.trans (if_neg hl)⟩
    | false =>
      right; right
      cases hs : p.start with
      | true =>
        rw [clockEdge_present hr hb hs, presentEdge] at h
        cases ho : Op.ofCode p.op with
        | none => rw [ho] at h; cases h
        | some op =>
          rw [ho] at h
          exact .inl ⟨op, ⟨hr, hs, (Op.code_of_ofCode ho).symm⟩, rfl, (Host.Outcome.next.inj h).symm⟩
      | false =>
        rw [clockEdge_idle hr hb hs] at h
        exact .inr ⟨⟨hr, hs⟩, rfl, (Host.Outcome.next.inj h).symm⟩

/-- The one way in which a clock edge has no next state. -/
theorem clockEdge_refused {p : Pins} {s : State} (h : ∀ t, clockEdge p s ≠ .next t) :
    p.rst = false ∧ s.busy = false ∧ p.start = true ∧ Op.ofCode p.op = none ∧
      clockEdge p s = .refused .reservedOp := by
  cases hr : p.rst with
  | true => exact absurd (clockEdge_reset hr s) (h _)
  | false =>
    cases hb : s.busy with
    | true => exact absurd (clockEdge_busy hr hb) (h _)
    | false =>
      cases hs : p.start with
      | false => exact absurd (clockEdge_idle hr hb hs) (h _)
      | true =>
        have hp := clockEdge_present hr hb hs
        cases ho : Op.ofCode p.op with
        | none => exact ⟨rfl, rfl, rfl, rfl, by rw [hp, presentEdge, ho]⟩
        | some op => exact absurd (by rw [hp, presentEdge, ho]) (h _)

theorem runEdges_append (ps qs : List Pins) (s : State) :
    runEdges (ps ++ qs) s =
      match runEdges ps s with
      | .next t => runEdges qs t
      | .fault r => .fault r
      | .refused r => .refused r := by
  induction ps generalizing s with
  | nil => rfl
  | cons p ps ih =>
    rw [List.cons_append, runEdges, runEdges]
    cases clockEdge p s with
    | next t => exact ih t
    | fault r => rfl
    | refused r => rfl

theorem runEdges_append_of_next {ps : List Pins} {s t : State} (h : runEdges ps s = .next t) (qs : List Pins) :
    runEdges (ps ++ qs) s = runEdges qs t := by rw [runEdges_append, h]

theorem runEdges_cons_of_next {p : Pins} {s t : State} (h : clockEdge p s = .next t) (ps : List Pins) :
    runEdges (p :: ps) s = runEdges ps t := by rw [runEdges, h]

/-! ## What a command leaves (rules R118, R134, R145) -/

theorem latency_pos (op : Op) : 1 ≤ latency op := by cases op <;> exact Nat.succ_pos _

theorem runCommand_of_not_busy {s : State} (h : s.busy = false) (op : Op) (key : Key) (blk : Block) :
    runCommand op key blk s = complete (accept op key blk s) := if_neg (by simp [h])

theorem runCommand_of_busy {s : State} (h : s.busy = true) (op : Op) (key : Key) (blk : Block) :
    runCommand op key blk s = s := if_pos h

theorem deliver_expand (r f : Regs) : deliver Op.expand.code r f = { f with s := r.s } := rfl

theorem deliver_encrypt (r f : Regs) : deliver Op.encrypt.code r f = f.withPair r.pair := rfl

theorem deliver_decrypt (r f : Regs) : deliver Op.decrypt.code r f = f.withPair r.pair := rfl

/-- Which result flag a command sets (rule R28). -/
def setsBv : Op → Bool
  | .expand => false
  | .encrypt => true
  | .decrypt => true

/-- Everything but the data registers that a command leaves when it is presented with `BUSY = 0`. -/
theorem runCommand_frame {s : State} (h : s.busy = false) (op : Op) (key : Key) (blk : Block) :
    let t := runCommand op key blk s
    t.busy = false ∧ t.bv = setsBv op ∧ t.sv = !(setsBv op) ∧ t.opr = op.code ∧ t.seq = Sequencer.idle ∧
      t.rotV = s.rotV ∧ t.rotAmt = s.rotAmt ∧ t.rotDir = s.rotDir ∧ t.host = s.host := by
  intro t
  have ht : t = complete (accept op key blk s) := runCommand_of_not_busy h op key blk
  rw [ht]
  cases op <;> simp [Op.code, setsBv]

/-- The schedule that `EXPAND` delivers (rule R118). -/
theorem runCommand_expand {s : State} (h : s.busy = false) (key : Key) (blk : Block) :
    (runCommand .expand key blk s).regs.s = ksa key := by
  rw [runCommand_of_not_busy h, complete_regs, accept_opr, deliver_expand, accept_seq, accept_regs, runSteps_expand]

/-- The pair that `ENCRYPT` delivers (rule R134). -/
theorem runCommand_encrypt {s : State} (h : s.busy = false) (key : Key) (blk : Block) :
    (runCommand .encrypt key blk s).regs.pair = ((encrypt blk key)[0], (encrypt blk key)[1]) := by
  rw [runCommand_of_not_busy h, complete_regs, accept_opr, deliver_encrypt, accept_seq, accept_regs,
    Regs.pair_withPair, runSteps_encrypt]

/-- The pair that `DECRYPT` delivers (rule R145). -/
theorem runCommand_decrypt {s : State} (h : s.busy = false) (key : Key) (blk : Block) :
    (runCommand .decrypt key blk s).regs.pair = ((decrypt blk key)[0], (decrypt blk key)[1]) := by
  rw [runCommand_of_not_busy h, complete_regs, accept_opr, deliver_decrypt, accept_seq, accept_regs,
    Regs.pair_withPair, runSteps_decrypt]

/-- `A` and `B` as a block, from the pair they are. -/
theorem Regs.block_of_pair {r : Regs} {b : Block} (h : r.pair = (b[0], b[1])) : #v[r.a, r.b] = b := by
  have h0 : r.a = b[0] := congrArg Prod.fst h
  have h1 : r.b = b[1] := congrArg Prod.snd h
  rw [h0, h1]
  exact Block.eta b

/-- Edges of a running command before its last, without reset: it stays busy, no flag changes, the edges are counted
off, and what its work list will end in stays the same, however many micro-steps each edge does. -/
theorem runEdges_busy (ps : List Pins) (s : State) (hb : s.busy = true) (hp : ∀ q ∈ ps, q.noReset)
    (hlen : ps.length < s.seq.edgesLeft) :
    ∃ u, runEdges ps s = .next u ∧ u.busy = true ∧ u.bv = s.bv ∧ u.sv = s.sv ∧ u.opr = s.opr ∧
      u.draws = s.draws ∧ u.host = s.host ∧ u.seq.edgesLeft = s.seq.edgesLeft - ps.length ∧
      runSteps u.seq.todo u.regs = runSteps s.seq.todo s.regs := by
  induction ps generalizing s with
  | nil => exact ⟨s, rfl, hb, rfl, rfl, rfl, rfl, rfl, rfl, rfl⟩
  | cons p ps ih =>
    have hpr : p.rst = false := hp p (by simp)
    rw [List.length_cons] at hlen
    have hedge : clockEdge p s = .next (advance (driveRotator p.rotDir p.rotV p.rotAmt s)) := by
      rw [clockEdge_busy hpr hb, busyEdge, if_neg]
      simp only [driveRotator_seq]
      omega
    obtain ⟨u, h1, h2, h3, h4, h5, h6, h7, h8, h9⟩ := ih (advance (driveRotator p.rotDir p.rotV p.rotAmt s)) hb
      (fun q hq => hp q (by simp [hq])) (by simp only [advance_seq, driveRotator_seq]; omega)
    refine ⟨u, by rw [runEdges_cons_of_next hedge, h1], h2, h3, h4, h5, h6, h7, ?_, ?_⟩
    · rw [h8]
      simp only [advance_seq, driveRotator_seq, List.length_cons]
      omega
    · rw [h9]
      simp only [advance_seq, advance_regs, driveRotator_seq, driveRotator_regs]
      exact runSteps_take_drop _ _ _

/-- COMPLETE depends on the registers and the work list only through what the list will end in. -/
theorem complete_congr {s t : State} (hopr : s.opr = t.opr)
    (hrun : runSteps s.seq.todo s.regs = runSteps t.seq.todo t.regs) (hdraws : s.draws = t.draws)
    (hbv : s.bv = t.bv) (hsv : s.sv = t.sv) (hhost : s.host = t.host) (hv : s.rotV = t.rotV)
    (hn : s.rotAmt = t.rotAmt) (hd : s.rotDir = t.rotDir) : complete s = complete t := by
  unfold complete State.completeFlags
  simp only [hopr, hrun, hdraws, hbv, hsv, hhost, hv, hn, hd]

theorem waitIdle_busy (s : State) : (waitIdle s).busy = false := by
  unfold waitIdle
  split
  · rfl
  · next h => simpa using h

theorem waitIdle_of_not_busy {s : State} (h : s.busy = false) : waitIdle s = s := if_neg (by simp [h])

theorem beforeLine_of_not_busy {s : State} (h : s.busy = false) (i : Instr) : beforeLine i s = s := by
  cases i <;> first | rfl | exact waitIdle_of_not_busy h

/-! ## The invariant (rules R28, R29, R35) -/

theorem driveRotator_inv {s : State} (h : s.Inv) (d : BitVec 1) (v : Word) (n : BitVec 8) :
    (driveRotator d v n s).Inv := h

theorem resetEdge_inv (s : State) : (resetEdge s).Inv :=
  ⟨⟨by simp, by simp⟩, ⟨by simp, by simp⟩⟩

theorem accept_inv (op : Op) (key : Key) (blk : Block) (s : State) : (accept op key blk s).Inv :=
  ⟨⟨by simp, by simp⟩, ⟨by simp, fun _ => ⟨op, rfl, List.suffix_rfl, latency_pos op, le_rfl⟩⟩⟩

theorem complete_inv {s : State} (h : s.Inv) (hb : s.busy = true) : (complete s).Inv := by
  obtain ⟨hbv, hsv⟩ := h.1.2 hb
  obtain ⟨op, hop, -⟩ := h.2.2 hb
  refine ⟨⟨?_, by simp⟩, ⟨by simp, by simp⟩⟩
  cases op <;> simp [hbv, hsv, hop, Op.code]

theorem advance_inv {s : State} (h : s.Inv) (hb : s.busy = true) (hl : 1 < s.seq.edgesLeft) : (advance s).Inv := by
  obtain ⟨op, hop, hsuf, -, hlat⟩ := h.2.2 hb
  refine ⟨h.1, ⟨by simp [hb], fun _ => ⟨op, hop, (List.drop_suffix _ _).trans hsuf, ?_, ?_⟩⟩⟩
  · simp only [advance_seq]; omega
  · simp only [advance_seq]; omega

theorem clockEdge_inv {p : Pins} {s t : State} (h : s.Inv) (ht : clockEdge p s = .next t) : t.Inv := by
  rcases clockEdge_cases ht with ⟨-, rfl⟩ | ⟨-, hb, hl, rfl⟩ | ⟨-, hb, -, rfl⟩ | ⟨op, -, -, rfl⟩ | ⟨-, -, rfl⟩
  · exact resetEdge_inv _
  · exact advance_inv (driveRotator_inv h _ _ _) hb hl
  · exact complete_inv (driveRotator_inv h _ _ _) hb
  · exact accept_inv _ _ _ _
  · exact driveRotator_inv h _ _ _

theorem runCommand_inv {s : State} (h : s.Inv) (op : Op) (key : Key) (blk : Block) :
    (runCommand op key blk s).Inv := by
  cases hb : s.busy with
  | true => rwa [runCommand_of_busy hb]
  | false =>
    rw [runCommand_of_not_busy hb]
    exact complete_inv (accept_inv _ _ _ _) rfl

theorem waitIdle_inv {s : State} (h : s.Inv) : (waitIdle s).Inv := by
  unfold waitIdle
  split
  · next hb => exact complete_inv h hb
  · exact h

theorem beforeLine_inv {s : State} (h : s.Inv) (i : Instr) : (beforeLine i s).Inv := by
  cases i <;> first | exact h | exact waitIdle_inv h

/-- The host's moves are no part of the invariant. -/
theorem withHost_inv {s : State} (h : s.Inv) (l : List HostMove) : State.Inv { s with host := l } := h

theorem exec_inv {i : Instr} {s t : State} (h : s.Inv) (ht : exec i s = .next t) : t.Inv := by
  cases i with
  | expand k b => cases ht; exact runCommand_inv h _ _ _
  | encrypt k b => cases ht; exact runCommand_inv h _ _ _
  | decrypt k b => cases ht; exact runCommand_inv h _ _ _
  | rotl v n => cases ht; exact driveRotator_inv h _ _ _
  | rotr v n => cases ht; exact driveRotator_inv h _ _ _
  | reservedOp3 k b =>
    simp only [exec, execReservedOp3, presentEdge, Op.ofCode_reserved] at ht
    split at ht
    · cases ht; exact h
    · cases ht

end Sys2Proof.Machine
end

