-- ==== Sys2Proof/Laws/Alike.lean ====
section
/-! SUPPORT. The shared operations on two states that look alike to the host (rules R32, R33): one lemma for each
operation, saying that it keeps them alike. -/

namespace Sys2Proof.Machine

theorem State.Alike.refl (s : State) : s.Alike s :=
  ⟨rfl, rfl, rfl, rfl, rfl, rfl, fun _ => ⟨rfl, fun _ => rfl, fun _ => rfl⟩⟩

theorem State.Alike.flags {s t : State} (h : s.Alike t) : s.busy = t.busy ∧ s.bv = t.bv ∧ s.sv = t.sv :=
  ⟨congrArg View.busy h.1, congrArg View.bv h.1, congrArg View.sv h.1⟩

theorem State.Alike.withHost {s t : State} (h : s.Alike t) (l : List HostMove) :
    State.Alike { s with host := l } { t with host := l } := by
  obtain ⟨hview, hv, hn, hd, hseq, -, hrun⟩ := h
  exact ⟨hview, hv, hn, hd, hseq, rfl, hrun⟩

theorem driveRotator_alike {s t : State} (h : s.Alike t) (d : BitVec 1) (v : Word) (n : BitVec 8) :
    (driveRotator d v n s).Alike (driveRotator d v n t) := by
  obtain ⟨hview, -, -, -, hseq, hhost, hrun⟩ := h
  refine ⟨?_, rfl, rfl, rfl, hseq, hhost, hrun⟩
  have h1 := congrArg View.busy hview
  have h2 := congrArg View.bv hview
  have h3 := congrArg View.sv hview
  have h4 := congrArg View.blockOut hview
  have h5 := congrArg View.schedOut hview
  show View.mk _ _ _ _ _ _ = View.mk _ _ _ _ _ _
  congr 1

/-- COMPLETE: what the command delivers is the same, what it does not deliver stays hidden, whatever free values it
takes. -/
theorem complete_alike {s t : State} (h : s.Alike t) (hb : s.busy = true) (hf : s.FlagsOk) :
    (complete s).Alike (complete t) := by
  obtain ⟨-, hbv, hsv⟩ := h.flags
  obtain ⟨hview, hv, hn, hd, -, hhost, hrun⟩ := h
  obtain ⟨hopr, hs, hp⟩ := hrun hb
  obtain ⟨hbv0, hsv0⟩ := hf.2 hb
  have hy : s.rotY = t.rotY := congrArg View.rotY hview
  have hBv : (complete s).bv = (complete t).bv := by rw [complete_bv, complete_bv, hbv, hopr]
  have hSv : (complete s).sv = (complete t).sv := by rw [complete_sv, complete_sv, hsv, hopr]
  have hBlock : (complete s).blockOut = (complete t).blockOut := by
    unfold State.blockOut
    rw [hBv]
    split
    · next hset =>
      rw [← hBv, complete_bv, hbv0, Bool.false_or, Bool.or_eq_true, beq_iff_eq, beq_iff_eq] at hset
      have h0 : s.opr ≠ Op.expand.code := by rcases hset with h | h <;> rw [h] <;> decide
      obtain ⟨ha, hb'⟩ := Prod.mk.inj (hp h0)
      have hA : (complete s).regs.a = (complete t).regs.a := by
        rw [complete_regs, complete_regs, ← hopr, deliver, deliver, if_neg h0, if_neg h0, if_pos hset, if_pos hset, ha]
      have hB : (complete s).regs.b = (complete t).regs.b := by
        rw [complete_regs, complete_regs, ← hopr, deliver, deliver, if_neg h0, if_neg h0, if_pos hset, if_pos hset, hb']
      rw [hA, hB]
    · rfl
  have hSched : (complete s).schedOut = (complete t).schedOut := by
    unfold State.schedOut
    rw [hSv]
    split
    · next hset =>
      rw [← hSv, complete_sv, hsv0, Bool.false_or, beq_iff_eq] at hset
      have hS : (complete s).regs.s = (complete t).regs.s := by
        rw [complete_regs, complete_regs, ← hopr, hset, deliver_expand, deliver_expand, hs hset]
      rw [hS]
    · rfl
  refine ⟨?_, hv, hn, hd, rfl, hhost, fun h => absurd h (by simp)⟩
  show View.mk false (complete s).bv (complete s).sv (complete s).blockOut (complete s).schedOut s.rotY =
    View.mk false (complete t).bv (complete t).sv (complete t).blockOut (complete t).schedOut t.rotY
  rw [hBv, hSv, hBlock, hSched, hy]

theorem resetEdge_alike {s t : State} (h : s.Alike t) : (resetEdge s).Alike (resetEdge t) := by
  obtain ⟨hview, hv, hn, hd, -, hhost, -⟩ := h
  have hy : s.rotY = t.rotY := congrArg View.rotY hview
  refine ⟨?_, hv, hn, hd, rfl, hhost, fun h => absurd h (by simp)⟩
  show View.mk false false false none none s.rotY = View.mk false false false none none t.rotY
  rw [hy]

/-- ACCEPT of the same command: what its work list ends in depends on the operands alone (rule R32(b)). -/
theorem accept_alike {s t : State} (h : s.Alike t) (op : Op) (key : Key) (blk : Block) :
    (accept op key blk s).Alike (accept op key blk t) := by
  obtain ⟨hview, hv, hn, hd, -, hhost, -⟩ := h
  refine ⟨?_, hv, hn, hd, rfl, hhost, fun _ => ⟨rfl, fun ho => ?_, fun ho => ?_⟩⟩
  · have hy : s.rotY = t.rotY := congrArg View.rotY hview
    show View.mk true false false none none s.rotY = View.mk true false false none none t.rotY
    rw [hy]
  · obtain rfl : op = .expand := Op.code_injective ho
    simp only [accept_seq, accept_regs, runSteps_expand]
  · cases op with
    | expand => exact absurd rfl ho
    | encrypt => simp only [accept_seq, accept_regs, runSteps_encrypt]
    | decrypt => simp only [accept_seq, accept_regs, runSteps_decrypt]

theorem advance_alike {s t : State} (h : s.Alike t) (hb : s.busy = true) (hi : s.Inv) :
    (advance s).Alike (advance t) := by
  obtain ⟨hbusy, hbv, hsv⟩ := h.flags
  obtain ⟨hview, hv, hn, hd, hseq, hhost, hrun⟩ := h
  obtain ⟨hopr, hdel⟩ := hrun hb
  obtain ⟨hbv0, hsv0⟩ := hi.1.2 hb
  refine ⟨?_, hv, hn, hd, ?_, hhost, fun _ => ⟨hopr, ?_⟩⟩
  · have hy : s.rotY = t.rotY := congrArg View.rotY hview
    show View.mk s.busy s.bv s.sv (advance s).blockOut (advance s).schedOut s.rotY =
      View.mk t.busy t.bv t.sv (advance t).blockOut (advance t).schedOut t.rotY
    rw [State.blockOut_of_not_bv (s := advance s) hbv0, State.schedOut_of_not_sv (s := advance s) hsv0,
      State.blockOut_of_not_bv (s := advance t) (hbv ▸ hbv0), State.schedOut_of_not_sv (s := advance t) (hsv ▸ hsv0),
      hbusy, hbv, hsv, hy]
  · simp only [advance_seq, hseq, hopr]
  · simp only [advance_seq, advance_regs, advance_opr, runSteps_take_drop]
    exact hdel

theorem waitIdle_alike {s t : State} (h : s.Alike t) (hf : s.FlagsOk) : (waitIdle s).Alike (waitIdle t) := by
  have hb := h.flags.1
  cases hs : s.busy with
  | true =>
    rw [waitIdle, waitIdle, if_pos hs, if_pos (hb ▸ hs)]
    exact complete_alike h hs hf
  | false => rwa [waitIdle_of_not_busy hs, waitIdle_of_not_busy (hb ▸ hs)]

theorem runCommand_alike {s t : State} (h : s.Alike t) (op : Op) (key : Key) (blk : Block) :
    (runCommand op key blk s).Alike (runCommand op key blk t) := by
  have hbusy := h.flags.1
  cases hb : s.busy with
  | true => rwa [runCommand_of_busy hb, runCommand_of_busy (hbusy ▸ hb)]
  | false =>
    rw [runCommand_of_not_busy hb, runCommand_of_not_busy (hbusy ▸ hb)]
    exact complete_alike (accept_alike h _ _ _) rfl (accept_inv _ _ _ _).1

end Sys2Proof.Machine
end

