-- ==== Sys2Proof/Laws/PerInstr.lean ====
section
/-! SUPPORT. The family `RoundTrip`: the decoder gives back each instruction from its encoding, one lemma for each
constructor (rules R71 to R75). -/

namespace Sys2Proof.Laws.RoundTrip

/-- Decoding the encoding of an instruction gives the instruction back. -/
def Statement (i : Instr) : Prop := decode (encode i) = i

theorem expand (key : Key) (blockIn : Block) : Statement (.expand key blockIn) := decode_commandWires _ _ _

theorem encrypt (key : Key) (blockIn : Block) : Statement (.encrypt key blockIn) := decode_commandWires _ _ _

theorem decrypt (key : Key) (blockIn : Block) : Statement (.decrypt key blockIn) := decode_commandWires _ _ _

theorem rotl (v : Word) (amount : BitVec 8) : Statement (.rotl v amount) := decode_rotatorWires _ _ _

theorem rotr (v : Word) (amount : BitVec 8) : Statement (.rotr v amount) := decode_rotatorWires _ _ _

theorem reservedOp3 (key : Key) (blockIn : Block) : Statement (.reservedOp3 key blockIn) := decode_commandWires _ _ _

end Sys2Proof.Laws.RoundTrip
end

