-- ==== Sys2Proof/Laws/Step.lean ====
section
/-! SUPPORT. What one step does with each move of the host, and what comes before each instruction of a line. -/

namespace Sys2Proof.Machine

theorem step_line {w : PortWord} {rest : List HostMove} {s : State} (h : s.host = .line w :: rest) :
    step s = exec (decode w) (beforeLine (decode w) { s with host := rest }) := by
  rw [step, h]; rfl

theorem step_lineOut {op : BitVec 2} {key : Key} {b0 b1 : BlockToken} {rest : List HostMove} {s : State}
    (h : s.host = .lineOut op key b0 b1 :: rest) : step s = runLineOut op key b0 b1 { s with host := rest } := by
  rw [step, h]; rfl

theorem step_edge {p : Pins} {rest : List HostMove} {s : State} (h : s.host = .edge p :: rest) :
    step s = clockEdge p { s with host := rest } := by
  rw [step, h]; rfl

theorem step_no_move {s : State} (h : s.host = []) : step s = clockEdge s.quietPins s := by rw [step, h]

theorem waitIdle_of_busy {s : State} (h : s.busy = true) : waitIdle s = complete s := if_pos h

/-- Every command line waits (rule R77). -/
theorem beforeLine_decodeCommand (op : BitVec 2) (key : Key) (blk : Block) (s : State) :
    beforeLine (decodeCommand op key blk) s = waitIdle s := by
  unfold decodeCommand
  split <;> rfl

/-- No rotator line waits (rule R90). -/
theorem beforeLine_decodeRotator (dir : BitVec 1) (v : Word) (amount : BitVec 8) (s : State) :
    beforeLine (decodeRotator dir v amount) s = s := by
  unfold decodeRotator
  split <;> rfl

/-- What a command presented with `BUSY = 0` leaves for the host to see (rules R118, R134, R145). -/
theorem runCommand_shows {s : State} (h : s.busy = false) (op : Op) (key : Key) (blk : Block) :
    (runCommand op key blk s).Shows op key blk := by
  obtain ⟨hbusy, hbv, hsv, -⟩ := runCommand_frame h op key blk
  refine ⟨hbusy, ?_⟩
  cases op with
  | expand => exact ⟨by rw [State.schedOut_of_sv hsv, runCommand_expand h], hsv, hbv⟩
  | encrypt => exact ⟨by rw [State.blockOut_of_bv hbv, Regs.block_of_pair (runCommand_encrypt h _ _)], hbv, hsv⟩
  | decrypt => exact ⟨by rw [State.blockOut_of_bv hbv, Regs.block_of_pair (runCommand_decrypt h _ _)], hbv, hsv⟩

end Sys2Proof.Machine
end

