-- ==== Sys2Proof/Laws/System.lean ====
section
/-! SUPPORT. What a step of one core of a system can do (rules R61, R157). -/

namespace Sys2Proof.Machine

theorem stepCore_none {sys : List State} {n : Nat} (h : sys[n]? = none) : stepCore sys n = .next sys := by
  simp only [stepCore, h]

theorem stepCore_some {sys : List State} {n : Nat} {s t : State} (h : sys[n]? = some s) (ht : step s = .next t) :
    stepCore sys n = .next (sys.set n t) := by
  simp only [stepCore, h, ht]

/-- All that a step of one core can do when it has a next state. -/
theorem stepCore_cases {sys u : List State} {n : Nat} (h : stepCore sys n = .next u) :
    (sys[n]? = none ∧ u = sys) ∨ ∃ s t, sys[n]? = some s ∧ step s = .next t ∧ u = sys.set n t := by
  unfold stepCore at h
  split at h
  · next h0 => exact .inl ⟨h0, (Host.Outcome.next.inj h).symm⟩
  · next s h0 =>
    split at h
    · next t ht => exact .inr ⟨s, t, h0, ht, (Host.Outcome.next.inj h).symm⟩
    · cases h
    · cases h

end Sys2Proof.Machine
end

