-- ==== Sys2Proof/Tests/Slice0.lean ====
section
/-! SUPPORT. The model's own tests. Expected values come from the spec: 95_test_vectors.md, the rules' own examples, and
words written out from the tables of 30_encoding.md. The second half shows, for each statement with hypotheses, a case
that meets them all. -/

namespace Sys2Proof.Tests

open Sys2Proof Sys2Proof.Machine

/-! ## Helpers -/

/-- The next state, where there is one. -/
def nextOf : Host.Outcome State Fault Refusal → Option State
  | .next s => some s
  | .fault _ => none
  | .refused _ => none

/-- `BLOCK_OUT` after an outcome, as a list. -/
def blockAfter (o : Host.Outcome State Fault Refusal) : Option (List Word) :=
  (nextOf o).bind fun s => s.blockOut.map (·.toList)

/-- `SCHED_OUT` after an outcome, as a list. -/
def schedAfter (o : Host.Outcome State Fault Refusal) : Option (List Word) :=
  (nextOf o).bind fun s => s.schedOut.map (·.toList)

/-- `ROT_Y` after an outcome. -/
def rotAfter (o : Host.Outcome State Fault Refusal) : Option Word := (nextOf o).map (·.rotY)

/-- The keys of 95_test_vectors.md. -/
def kz : Key := #v[0, 0, 0, 0]
def k2 : Key := #v[0x19465F91, 0x51B241BE, 0x01A55563, 0x91CEA910]
def k3 : Key := #v[0xE7483378, 0x2F0FEB5A, 0xBB69B1D7, 0x8767C18D]
def kf : Key := #v[0xFFFFFFFF, 0xFFFFFFFF, 0xFFFFFFFF, 0xFFFFFFFF]

/-! ## WellFormed: an ill-formed instruction is refused by the one check -/

theorem test_reserved_is_ill_formed : (Instr.reservedOp3 kz #v[0, 0]).wellFormed = false := by decide

theorem test_encrypt_is_well_formed : (Instr.encrypt kz #v[0, 0]).wellFormed = true := by decide

/-! ## Decoding of words written out from rules R71, R72 and R27 -/

/-- `OP = 00` on wires 1:0, `KEY[0] = 1` from wire 2 on. -/
theorem test_decode_expand : decode (.cmd 0x4#194) = .expand #v[1, 0, 0, 0] #v[0, 0] := by decide

/-- `OP = 01`, and `BLOCK_IN[1] = 0x80000000`, the topmost wire, 193. -/
theorem test_decode_encrypt :
    decode (.cmd (0x80000000#32 ++ 0#160 ++ 0b01#2)) = .encrypt #v[0, 0, 0, 0] #v[0, 0x80000000] := by decide

/-- `OP = 10`, `KEY[3] = 0x91CEA910`, `BLOCK_IN[0] = 0xEEDBA521`. -/
theorem test_decode_decrypt :
    decode (.cmd (0#32 ++ 0xEEDBA521#32 ++ 0x91CEA910#32 ++ 0#96 ++ 0b10#2)) =
      .decrypt #v[0, 0, 0, 0x91CEA910] #v[0xEEDBA521, 0] := by decide

/-- `OP = 11`. -/
theorem test_decode_reserved : decode (.cmd 0b11#194) = .reservedOp3 #v[0, 0, 0, 0] #v[0, 0] := by decide

/-- `DIR = 0`, `ROT_V = 0x12345678`, `ROT_AMT = 4` (program 4, line 1). -/
theorem test_decode_rotl : decode (.rot (0x04#8 ++ 0x12345678#32 ++ 0#1)) = .rotl 0x12345678 4 := by decide

/-- `DIR = 1`, `ROT_V = 0x23456781`, `ROT_AMT = 0x24` (program 4, line 2). -/
theorem test_decode_rotr : decode (.rot (0x24#8 ++ 0x23456781#32 ++ 1#1)) = .rotr 0x23456781 0x24 := by decide

/-- A number with a bit above the last wire is the word of nothing. -/
theorem test_decode_too_wide : decodeNat .rot (2 ^ 41) = .error (.beyondFormat .rot) := by rfl

theorem test_table_word_encrypt : decodeTableWord 2 1 = some (.encrypt #v[0, 0, 0, 0] #v[0, 0]) := by decide

theorem test_table_word_rotr : decodeTableWord 1 1 = some (.rotr 0 0) := by decide

/-! ## Rotator (95_test_vectors.md section 2) -/

theorem test_rotl_amount_above_width :
    rotAfter (exec (.rotl 0x12345678 36) State.reset) = some 0x23456781 := by decide

theorem test_rotl_largest_amount :
    rotAfter (exec (.rotl 0x12345678 255) State.reset) = some 0x091A2B3C := by decide

theorem test_rotr_first_mixing_word :
    rotAfter (exec (.rotr 0xB7E15163 3) State.reset) = some 0x76FC2A2C := by decide

theorem test_rotr_only_upper_amount_bits :
    rotAfter (exec (.rotr 0x12345678 224) State.reset) = some 0x12345678 := by decide

/-! ## Key schedule (sections 3.2 and 3.3) -/

theorem test_expand_k2 :
    (schedAfter (exec (.expand k2 #v[0, 0]) State.reset)).map (fun l => (l[0]?, l[1]?, l[17]?, l[25]?)) =
      some (some 0x6D835AFC, some 0x7D15CD97, some 0x00E18E79, some 0x30726D5A) := by decide +kernel

/-- The registers when the key schedule's work is done: `K`, `A`, `B` of section 3.3 for `KF`. -/
theorem test_mixing_leaves_kf :
    let r := runSteps scheduleSteps { State.reset.regs with k := kf }
    (r.k.toList, r.a, r.b) =
      ([0x5726F0C1, 0x5993B08D, 0x4DE01687, 0x1138FCEF], 0xC7BA0DA0, 0x5993B08D) := by decide +kernel

/-! ## Encryption and decryption (sections 1, 4.1 and 5.1), and the readings that section 6 rejects -/

/-- KAT 2. -/
theorem test_encrypt_kat2 :
    blockAfter (exec (.encrypt k2 #v[0xEEDBA521, 0x6D8F4B15]) State.reset) =
      some [0xAC13C0F7, 0x52892B5B] := by decide +kernel

/-- Whitening additions wrap; the value is not the one of the reading rejected in conflict C1. -/
theorem test_encrypt_wraps :
    blockAfter (exec (.encrypt kf #v[0xFFFFFFFF, 0xFFFFFFFF]) State.reset) =
      some [0xE9698777, 0xB76701BE] := by decide +kernel

/-- KAT 3 reversed. -/
theorem test_decrypt_kat3 :
    blockAfter (exec (.decrypt k3 #v[0xB7B3422F, 0x92FC6903]) State.reset) =
      some [0xAC13C0F7, 0x52892B5B] := by decide +kernel

/-- A block that no command produced; not the value of the reading rejected in conflict C2. -/
theorem test_decrypt_any_block :
    blockAfter (exec (.decrypt k2 #v[0xDEADBEEF, 0x0BADF00D]) State.reset) =
      some [0x487C1C49, 0x4E1AB151] := by decide +kernel

/-! ## The step: program lines and clock edges -/

/-- KAT 1 as the word `OP = 01` with operand wires of 0, run as the first instruction after reset. -/
theorem test_step_runs_fetched_word :
    blockAfter (step (State.reset.withFetchWord 2 1)) = some [0xEEDBA521, 0x6D8F4B15] := by decide +kernel

/-- Line 2 of program 1: the host copies `OUT0, OUT1`, here standing on `BLOCK_OUT` with `BV = 1`. -/
theorem test_step_copies_block_out :
    blockAfter (step { State.reset with
      bv := true
      regs := { State.reset.regs with a := 0xEEDBA521, b := 0x6D8F4B15 }
      host := [.lineOut 0b01 k2 .out0 .out1] }) = some [0xAC13C0F7, 0x52892B5B] := by decide +kernel

/-- A copy of `OUT0` while `BV = 0` is refused. -/
theorem test_step_refuses_stale_copy :
    step { State.reset with host := [.lineOut 0b01 k2 .out0 (.lit 0)] } = .refused .blockOutNotValid := by rfl

/-- Levels on the ports for the edges below. -/
def pinsOf (rst start : Bool) (op : BitVec 2) (key : Key) (blockIn : Block) : Pins :=
  { rst := rst, start := start, op := op, key := key, blockIn := blockIn, rotV := 0x80000001, rotAmt := 1, rotDir := 0 }

/-- Edge 1 of program 5: ACCEPT raises `BUSY` and loads `K` and `BLK`. -/
theorem test_edge_accepts :
    (nextOf (clockEdge (pinsOf false true 0b01 k2 #v[7, 8]) State.reset)).map
      (fun s => (s.busy, s.opr, s.regs.k.toList ++ s.regs.blk.toList)) =
      some (true, 0b01, k2.toList ++ [7, 8]) := by decide

/-- A core busy with its last edge and all of an `ENCRYPT` still to do. -/
def lastEdge : State :=
  { State.reset with
    regs := { State.reset.regs with k := k2, blk := #v[0xEEDBA521, 0x6D8F4B15] }
    opr := 0b01, busy := true, seq := { edgesLeft := 1, todo := commandSteps .encrypt } }

/-- Edge `1 + L` of program 5: COMPLETE, and the `START` of that edge is ignored. -/
theorem test_edge_completes :
    blockAfter (clockEdge (pinsOf false true 0b10 kz #v[1, 1]) lastEdge) = some [0xAC13C0F7, 0x52892B5B] := by
  decide +kernel

/-- Edge `3 + L` of program 5: reset abandons the command, and `ROT_Y` goes by its own inputs all the same. -/
theorem test_edge_resets :
    (nextOf (clockEdge (pinsOf true true 0b10 kz #v[1, 1]) lastEdge)).map (fun s => (s.busy, s.bv, s.sv, s.rotY)) =
      some (false, false, false, 3) := by decide

/-- `OP = 11` at an ACCEPT opportunity is refused (rule R75). -/
theorem test_edge_refuses_reserved :
    clockEdge (pinsOf false true 0b11 kz #v[0, 0]) State.reset = .refused .reservedOp := by rfl

/-- `OP = 11` as an instruction: refused while idle. -/
theorem test_reserved_refused : exec (.reservedOp3 kz #v[0, 0]) State.reset = .refused .reservedOp := by rfl

/-- `OP = 11` as an instruction: harmless while busy. -/
theorem test_reserved_ignored : exec (.reservedOp3 kz #v[0, 0]) lastEdge = .next lastEdge := by rfl

/-- The key of KAT 2 from the byte string of rule R53(b), first word. -/
theorem test_word_of_bytes : wordOfBytes 0x91 0x5F 0x46 0x19 = 0x19465F91 := by decide

/-! ## A case that meets the hypotheses of each statement that has some -/

theorem witness_RotatorIsCombinational :
    ∃ t, clockEdge (pinsOf false false 0 kz #v[0, 0]) State.reset = .next t := ⟨_, rfl⟩

theorem witness_RotateAmountIsReduced : (224#8).toNat % 32 = 0 := by decide

theorem witness_RotlResultAndFrame :
    (16#8).toNat % 32 = 16 ∧ (0#32 = 0#32) ∧ (0xFFFFFFFF#32 = 0xFFFFFFFF#32) ∧ 31 < 32 := by decide

theorem witness_RotrResultAndFrame : (48#8).toNat % 32 = 16 ∧ 0 < 32 := by decide

theorem witness_InitialSchedule : 24 + 1 < 26 := by decide

theorem witness_MixingStep :
    (25 : Fin 26).val ≠ (77 : Fin 78).val % 26 - 1 ∧ (0 : Fin 26).val ≠ (77 : Fin 78).val % 26 ∧
      (0 : Fin 4).val ≠ (77 : Fin 78).val % 4 := by decide

/-- The contents after `t` mixing steps. -/
def mixerAt (key : Key) (t : Nat) : Mixer := ((List.finRange 78).take t).foldl mixStep (mixStart key)

/-- `S[i]` and `K[j]` after `t` steps, as functions of plain numbers. -/
def sAt (key : Key) (t i : Nat) : Word := if h : i < 26 then (mixerAt key t).s[i] else 0
def kAt (key : Key) (t j : Nat) : Word := if h : j < 4 then (mixerAt key t).k[j] else 0

theorem mixerAt_succ (key : Key) (t : Nat) (h : t < 78) :
    mixerAt key (t + 1) = mixStep (mixerAt key t) ⟨t, h⟩ := foldl_take_succ _ _ t h

/-- The model's own mixing steps are such sequences, for every key. -/
theorem mixerAt_follows (key : Key) :
    FollowsKsa key (sAt key) (kAt key) (fun t => (mixerAt key t).a) (fun t => (mixerAt key t).b) := by
  refine ⟨rfl, ?_, ?_, rfl, rfl, fun t ht => ?_⟩
  · intro i h1 h2
    show sAt key 0 i = sAt key 0 (i - 1) + _
    obtain ⟨m, rfl⟩ := Nat.exists_eq_add_of_le' h1
    rw [Nat.add_sub_cancel, sAt, sAt, dif_pos (by omega), dif_pos (by omega)]
    show initSchedule[m + 1] = initSchedule[m] + _
    simp only [initSchedule, Vector.getElem_ofFn]
    rfl
  · intro j
    exact dif_pos j.isLt
  · have hi : t % 26 < 26 := Nat.mod_lt _ (by decide)
    have hj : t % 4 < 4 := Nat.mod_lt _ (by decide)
    have hm := mixerAt_succ key t ht
    have hA : (mixerAt key (t + 1)).s[t % 26] = (mixerAt key (t + 1)).a := by
      simp only [hm, mixStep_s, Vector.getElem_set_self]
    have hB : (mixerAt key (t + 1)).k[t % 4] = (mixerAt key (t + 1)).b := by
      simp only [hm, mixStep_k, Vector.getElem_set_self]
    simp only [sAt, kAt, hi, hj, dif_pos, hA, hB]
    refine ⟨?_, trivial, ?_, trivial, ?_, ?_⟩
    · rw [hm]
      exact mixStep_a _ _
    · rw [← amountOf_eq_mod, hm]
      exact mixStep_b _ _
    · intro i hi' hne
      simp only [hi', dif_pos, hm, mixStep_s]
      rw [Vector.getElem_set_ne _ _ (Ne.symm hne)]
    · intro j hj' hne
      simp only [hj', dif_pos, hm, mixStep_k]
      rw [Vector.getElem_set_ne _ _ (Ne.symm hne)]

theorem witness_KsaFollowsItsPseudocode :
    FollowsKsa k2 (sAt k2) (kAt k2) (fun t => (mixerAt k2 t).a) (fun t => (mixerAt k2 t).b) := mixerAt_follows k2

/-- The round trace of KAT 1 (section 4.2): `A` after whitening and after each round. -/
def kat1A : List Word :=
  [0x9BBBD8C8, 0xE3054A3E, 0xE302129B, 0x639B70F5, 0x4EC51F7A, 0xDE6D6EEE, 0x3609843C, 0xF16477D6, 0x3ABA7A57,
   0xB7822DF9, 0xB588CE11, 0x7481D719, 0xEEDBA521]

/-- The round trace of KAT 1: `B` after whitening and after each round. -/
def kat1B : List Word :=
  [0x1A37F7FB, 0xC4590FF6, 0x91865BEE, 0x59A030C7, 0x0605CF1B, 0x99B84E47, 0xE294C184, 0x73638347, 0x3014AF45,
   0xB4194A30, 0xB658248A, 0x6A9ED6EB, 0x6D8F4B15]

/-- The spec's own trace of KAT 1 follows whitening and the rounds. -/
theorem witness_EncryptFollowsItsPseudocode :
    FollowsRounds (ksa kz) #v[0, 0] (fun i => kat1A.getD i 0) (fun i => kat1B.getD i 0) := by
  have h : ∀ i : Fin 12,
      kat1A.getD (i + 1) 0 =
        rotl (kat1A.getD i 0 ^^^ kat1B.getD i 0) ((kat1B.getD i 0).toNat % 32) + (ksa kz)[2 * (i.val + 1)] ∧
      kat1B.getD (i + 1) 0 =
        rotl (kat1B.getD i 0 ^^^ kat1A.getD (i + 1) 0) ((kat1A.getD (i + 1) 0).toNat % 32) +
          (ksa kz)[2 * (i.val + 1) + 1] := by decide +kernel
  refine ⟨by decide +kernel, by decide +kernel, fun i h1 h12 => ?_⟩
  obtain ⟨m, rfl⟩ := Nat.exists_eq_add_of_le' h1
  exact h ⟨m, h12⟩

/-- The same trace, read backwards (section 5.2), follows the inverse rounds. -/
theorem witness_DecryptFollowsItsPseudocode :
    FollowsInverseRounds (ksa kz) #v[0xEEDBA521, 0x6D8F4B15] (fun i => kat1A.getD i 0) (fun i => kat1B.getD i 0) := by
  have h : ∀ i : Fin 12,
      kat1B.getD i 0 =
        rotr (kat1B.getD (i + 1) 0 - (ksa kz)[2 * (i.val + 1) + 1]) ((kat1A.getD (i + 1) 0).toNat % 32) ^^^
          kat1A.getD (i + 1) 0 ∧
      kat1A.getD i 0 =
        rotr (kat1A.getD (i + 1) 0 - (ksa kz)[2 * (i.val + 1)]) ((kat1B.getD i 0).toNat % 32) ^^^
          kat1B.getD i 0 := by decide +kernel
  refine ⟨by decide, by decide, fun i h1 h12 => ?_⟩
  obtain ⟨m, rfl⟩ := Nat.exists_eq_add_of_le' h1
  exact h ⟨m, h12⟩

/-- `BUSY = 0` holds after reset: the hypothesis of the statements about a presented command. -/
theorem witness_ExpandResultAndFrame : State.reset.busy = false := rfl
theorem witness_EncryptResultAndFrame : State.reset.busy = false := rfl
theorem witness_DecryptResultAndFrame : State.reset.busy = false := rfl
theorem witness_ExpandDoesNotFeedLaterCommand : State.reset.busy = false := rfl
theorem witness_FetchedWordRunsNext : State.reset.busy = false := rfl

theorem witness_RoundTripByProgramLines :
    ∃ s : State, s.host = [.line (encode (.encrypt k2 #v[1, 2])), .lineOut 0b10#2 k2 .out0 .out1] :=
  ⟨{ State.reset with host := _ }, rfl⟩

theorem witness_OutputPorts :
    State.reset.bv = false ∧ State.reset.sv = false ∧ ({ State.reset with bv := true } : State).bv = true ∧
      ({ State.reset with sv := true } : State).sv = true := ⟨rfl, rfl, rfl, rfl⟩

/-- An edge that presents `ENCRYPT`. -/
def encryptPins : Pins := pinsOf false true 0b01 k2 #v[1, 2]

/-- An edge at which nothing happens. -/
def quietPins : Pins := pinsOf false false 0 kz #v[0, 0]

theorem witness_AcceptEdge : encryptPins.presents .encrypt ∧ State.reset.busy = false := ⟨⟨rfl, rfl, rfl⟩, rfl⟩

theorem witness_CommandLifeCycle :
    ∃ ps : List Pins, encryptPins.presents .encrypt ∧ State.reset.busy = false ∧ ps.length = latency .encrypt ∧
      ∀ q ∈ ps, q.noReset :=
  ⟨List.replicate (latency .encrypt) quietPins, ⟨rfl, rfl, rfl⟩, rfl, List.length_replicate,
    fun q hq => by rw [List.eq_of_mem_replicate hq]; rfl⟩

theorem witness_ClockEdgesRefineInstruction :
    ∃ ps : List Pins, encryptPins.presents .encrypt ∧ State.reset.busy = false ∧ ps.length + 1 = latency .encrypt ∧
      (∀ q ∈ ps, q.noReset) ∧ quietPins.noReset :=
  ⟨List.replicate (latency .encrypt - 1) quietPins, ⟨rfl, rfl, rfl⟩, rfl,
    by rw [List.length_replicate]; exact Nat.sub_add_cancel (latency_pos _),
    fun q hq => by rw [List.eq_of_mem_replicate hq]; rfl, rfl⟩

theorem witness_ResultStaysUntilNextCommand : State.reset.busy = false ∧ ∀ q ∈ [quietPins], q.quiet :=
  ⟨rfl, fun q hq => by rw [List.mem_singleton.mp hq]; exact ⟨rfl, rfl⟩⟩

theorem reset_inv : State.reset.Inv := ⟨⟨by decide, by decide⟩, ⟨fun _ => rfl, fun h => by cases h⟩⟩

/-- A reachable busy state: just after ACCEPT. -/
theorem accepted_inv : (accept .encrypt k2 #v[1, 2] State.reset).Inv := accept_inv _ _ _ _

theorem witness_StepKeepsInvariant : State.reset.Inv ∧ step State.reset = .next State.reset := ⟨reset_inv, rfl⟩

/-- Two states that differ in every register that no output shows, and in the free values to come. -/
theorem witness_HiddenRegistersNeverReachOutputs :
    let t : State := { State.reset with
      regs := { a := 1, b := 2, s := initSchedule, k := k2, blk := #v[3, 4] }, opr := 2, draws := 5 }
    State.reset.Inv ∧ t.Inv ∧ State.reset.Alike t ∧ State.reset ≠ t :=
  ⟨reset_inv, ⟨⟨by decide, by decide⟩, ⟨fun _ => rfl, fun h => by cases h⟩⟩,
    ⟨rfl, rfl, rfl, rfl, rfl, rfl, fun h => by cases h⟩, by decide⟩

/-- The same while a command runs: the accumulators and the schedule differ, the end of the work does not. -/
theorem witness_HiddenRegistersWhileBusy :
    let t : State := { State.reset with
      regs := { a := 1, b := 2, s := initSchedule, k := k2, blk := #v[3, 4] }, opr := 2, draws := 5 }
    (accept .encrypt k2 #v[1, 2] State.reset).Alike (accept .encrypt k2 #v[1, 2] t) :=
  accept_alike witness_HiddenRegistersNeverReachOutputs.2.2.1 _ _ _

theorem witness_ReservedCode :
    let p := pinsOf false true 0b11#2 kz #v[0, 0]
    State.reset.busy = false ∧ p.rst = false ∧ p.start = true ∧ p.op = 0b11#2 ∧ lastEdge.busy = true :=
  ⟨rfl, rfl, rfl, rfl, rfl⟩

theorem witness_StepRunsDecodedInstruction :
    (∃ s : State, s.host = [.line (encode (.rotl 1 2))] ∧ s.busy = false ∧
      decode (encode (.rotl 1 2)) = .rotl 1 2) ∧
    ∃ s : State, s.host = [.line (encode (.encrypt k2 #v[1, 2]))] ∧ s.busy = true ∧
      decode (encode (.encrypt k2 #v[1, 2])) = decodeCommand 0b01 k2 #v[1, 2] :=
  ⟨⟨{ State.reset with host := _ }, rfl, rfl, by decide⟩, { lastEdge with host := _ }, rfl, rfl, by decide⟩

theorem witness_StepRunsOtherMoves :
    (∃ s : State, s.host = [.edge quietPins]) ∧ (State.reset.host = [] ∧ State.reset.busy = false) ∧
    (lastEdge.host = [] ∧ lastEdge.busy = true) ∧
    (∃ s : State, s.host = [.lineOut 0b01#2 k2 .out0 (.lit 7)] ∧ s.busy = false ∧ s.bv = true) ∧
    (∃ s : State, s.host = [.lineOut 0b01#2 k2 .out0 .out1] ∧ s.busy = true ∧
      (complete { s with host := [] }).bv = true) ∧
    (∃ s : State, s.host = [.lineOut 0b01#2 k2 (.lit 1) (.lit 2)] ∧ s.busy = false ∧ s.bv = false) ∧
    ∃ s : State, s.host = [.lineOut 0b01#2 k2 .out0 .out1] ∧ s.busy = false ∧ s.bv = false :=
  ⟨⟨{ State.reset with host := _ }, rfl⟩, ⟨rfl, rfl⟩, ⟨rfl, rfl⟩,
    ⟨{ State.reset with host := _, bv := true }, rfl, rfl, rfl⟩,
    ⟨{ accept .encrypt k2 #v[1, 2] State.reset with host := _ }, rfl, rfl, rfl⟩,
    ⟨{ State.reset with host := _ }, rfl, rfl, rfl⟩, ⟨{ State.reset with host := _ }, rfl, rfl, rfl⟩⟩

theorem witness_LineWaitsForRunningCommand :
    encryptPins.presents .encrypt ∧ State.reset.busy = false ∧ ([] : List Pins).length < latency .encrypt ∧
      (∀ q ∈ ([] : List Pins), q.noReset) ∧ ∃ s, runEdges [encryptPins] State.reset = .next s :=
  ⟨⟨rfl, rfl, rfl⟩, rfl, latency_pos _, by simp, _, rfl⟩

theorem witness_ConformingHostNeverStops :
    let s : State := { State.reset with host := [.line (encode (.encrypt k2 #v[1, 2]))] }
    ∀ m rest, s.host = m :: rest → m.conforming s := by
  intro s m rest h
  obtain ⟨rfl, -⟩ := List.cons.inj h
  show (decode (encode _)).wellFormed = true
  decide

/-- The reserved code at an edge of a running command is conforming. -/
theorem witness_ConformingReservedCode :
    let s : State := { lastEdge with host := [.edge (pinsOf false true 0b11 kz #v[0, 0])] }
    ∀ m rest, s.host = m :: rest → m.conforming s := by
  intro s m rest h
  obtain ⟨rfl, -⟩ := List.cons.inj h
  exact .inl rfl

theorem witness_EveryOperationCompletes :
    (Instr.decrypt k2 #v[1, 2]).wellFormed = true ∧ State.reset.busy = false := ⟨rfl, rfl⟩

theorem witness_EventPriority :
    (pinsOf true true 0b01 k2 #v[1, 2]).rst = true ∧
      (encryptPins.rst = false ∧ lastEdge.busy = true ∧ lastEdge.seq.edgesLeft = 1) ∧
      encryptPins.presents .encrypt := ⟨rfl, ⟨rfl, rfl, rfl⟩, ⟨rfl, rfl, rfl⟩⟩

theorem witness_CommandPortIgnoredWhileBusy :
    lastEdge.busy = true ∧ encryptPins.noReset ∧ quietPins.noReset ∧ encryptPins.rotV = quietPins.rotV ∧
      encryptPins.rotAmt = quietPins.rotAmt ∧ encryptPins.rotDir = quietPins.rotDir ∧ encryptPins ≠ quietPins :=
  ⟨rfl, rfl, rfl, rfl, rfl, rfl, by decide⟩

theorem witness_CoresAreIndependent :
    ∃ u w, [State.reset, lastEdge][0]? = some State.reset ∧ stepCore [State.reset, lastEdge] 0 = .next u ∧
      stepCore u 1 = .next w := ⟨_, _, rfl, rfl, rfl⟩

theorem witness_ResetEdge : (pinsOf true true 0b11 kz #v[0, 0]).rst = true := rfl

theorem witness_ResetAbandonsCommand :
    encryptPins.presents .encrypt ∧ State.reset.busy = false ∧ ([] : List Pins).length < latency .encrypt ∧
      (pinsOf true false 0 kz #v[0, 0]).rst = true ∧ ∀ q ∈ [quietPins], q.quiet :=
  ⟨⟨rfl, rfl, rfl⟩, rfl, latency_pos _, rfl, witness_ResultStaysUntilNextCommand.2⟩

theorem witness_RunningCommandCompletes :
    let s := accept .encrypt k2 #v[1, 2] State.reset
    ∃ ps : List Pins, s.Inv ∧ s.busy = true ∧ ps.length = s.seq.edgesLeft ∧ ∀ q ∈ ps, q.noReset :=
  ⟨List.replicate (latency .encrypt) quietPins, accepted_inv, rfl, List.length_replicate,
    fun q hq => by rw [List.eq_of_mem_replicate hq]; rfl⟩

end Sys2Proof.Tests
end

namespace Sys2Proof.Machine

/-! ## Lines that copy `BLOCK_OUT` (rule R77)

The block that such a line presents, and what the move can do. -/

/-- While `BV = 1` every block token stands for a word. -/
theorem BlockToken.word_of_bv {s : State} (h : s.bv = true) (b : BlockToken) :
    b.word s.blockOut = some (b.wordAt s) := by
  rw [State.blockOut_of_bv h]
  cases b <;> rfl

theorem lineBlock_of_bv {s : State} (h : s.bv = true) (b0 b1 : BlockToken) :
    lineBlock s.blockOut b0 b1 = some #v[b0.wordAt s, b1.wordAt s] := by
  rw [lineBlock, BlockToken.word_of_bv h, BlockToken.word_of_bv h]

theorem lineBlock_lit (out : Option Block) (w0 w1 : Word) : lineBlock out (.lit w0) (.lit w1) = some #v[w0, w1] := rfl

/-- Without a `BLOCK_OUT` to read, a copy in either place leaves the line without a block. -/
theorem lineBlock_none_of_copy {b0 b1 : BlockToken} (h : b0 = .out0 ∨ b0 = .out1 ∨ b1 = .out0 ∨ b1 = .out1) :
    lineBlock none b0 b1 = none := by
  rcases h with rfl | rfl | rfl | rfl
  · rfl
  · rfl
  · cases b0 <;> rfl
  · cases b0 <;> rfl

theorem runLineOut_of_block {key : Key} {b0 b1 : BlockToken} {s : State} {blk : Block}
    (h : lineBlock (waitIdle s).blockOut b0 b1 = some blk) (op : BitVec 2) :
    runLineOut op key b0 b1 s = exec (decodeCommand op key blk) (waitIdle s) := by
  rw [runLineOut, h]

theorem runLineOut_of_no_block {b0 b1 : BlockToken} {s : State}
    (h : lineBlock (waitIdle s).blockOut b0 b1 = none) (op : BitVec 2) (key : Key) :
    runLineOut op key b0 b1 s = .refused .blockOutNotValid := by
  rw [runLineOut, h]

/-! ## The micro-step lists, place by place (rule R29) -/

theorem commandSteps_expand : commandSteps .expand = scheduleSteps := rfl

theorem commandSteps_encrypt :
    commandSteps .encrypt = scheduleSteps ++ .whiten :: (List.finRange 12).map .round := rfl

theorem commandSteps_decrypt :
    commandSteps .decrypt =
      scheduleSteps ++ .loadBlk :: ((List.finRange 12).map (fun i => .unround i.rev) ++ [.unwhiten]) := by
  rw [commandSteps, List.finRange_reverse, List.map_map, List.append_assoc, List.cons_append]
  rfl

@[simp] theorem length_scheduleSteps : scheduleSteps.length = 104 := by
  simp [scheduleSteps]

/-- The list of every operation begins with the key schedule's. -/
theorem commandSteps_getElem?_of_lt (op : Op) {n : Nat} (h : n < 104) :
    (commandSteps op)[n]? = scheduleSteps[n]? := by
  have hn : n < scheduleSteps.length := by rwa [length_scheduleSteps]
  cases op with
  | expand => rfl
  | encrypt => rw [commandSteps_encrypt, List.getElem?_append_left hn]
  | decrypt => rw [commandSteps_decrypt, List.getElem?_append_left hn]

theorem scheduleSteps_getElem?_init (i : Fin 26) : scheduleSteps[i.val]? = some (.init i) := by
  rw [scheduleSteps, List.getElem?_append_left (by simp)]
  simp

theorem scheduleSteps_getElem?_mix (t : Fin 78) : scheduleSteps[26 + t.val]? = some (.mix t) := by
  rw [scheduleSteps, List.getElem?_append_right (by simp)]
  simp

/-- What stands after the key schedule's 104 micro-steps. -/
theorem schedule_append_getElem? (l : List MicroStep) (n : Nat) : (scheduleSteps ++ l)[104 + n]? = l[n]? := by
  rw [List.getElem?_append_right (by simp), length_scheduleSteps, Nat.add_sub_cancel_left]

/-! ## The invariant of the core under a step (rules R28, R29, R35) -/

/-- A core that neither runs a command nor shows a result. -/
theorem inv_of_idle {s : State} (hbusy : s.busy = false) (hbv : s.bv = false) (hseq : s.seq = Sequencer.idle) :
    s.Inv :=
  ⟨⟨by simp [hbv], by simp [hbusy]⟩, ⟨fun _ => hseq, by simp [hbusy]⟩⟩

theorem runLineOut_inv {op : BitVec 2} {key : Key} {b0 b1 : BlockToken} {s t : State} (h : s.Inv)
    (ht : runLineOut op key b0 b1 s = .next t) : t.Inv := by
  cases hblk : lineBlock (waitIdle s).blockOut b0 b1 with
  | none => rw [runLineOut_of_no_block hblk] at ht; cases ht
  | some blk =>
    rw [runLineOut_of_block hblk] at ht
    exact exec_inv (waitIdle_inv h) ht

theorem step_inv {s t : State} (h : s.Inv) (ht : step s = .next t) : t.Inv := by
  cases hhost : s.host with
  | nil =>
    rw [step_no_move hhost] at ht
    exact clockEdge_inv h ht
  | cons m rest =>
    have hr : State.Inv { s with host := rest } := withHost_inv h rest
    cases m with
    | line w =>
      rw [step_line hhost] at ht
      exact exec_inv (beforeLine_inv hr _) ht
    | lineOut op key b0 b1 =>
      rw [step_lineOut hhost] at ht
      exact runLineOut_inv hr ht
    | edge p =>
      rw [step_edge hhost] at ht
      exact clockEdge_inv hr ht

/-! ## Outcomes that look alike to the host (rules R32, R33)

One lemma for each level of a step, on top of the lemmas about the shared operations. -/

/-- Both outcomes are next states that look alike, or both are refusals for the same reason. -/
def OutcomesAlike (o o' : Host.Outcome State Fault Refusal) : Prop :=
  (∃ u v, o = .next u ∧ o' = .next v ∧ u.Alike v) ∨ ∃ r, o = .refused r ∧ o' = .refused r

theorem OutcomesAlike.next {u v : State} (h : u.Alike v) : OutcomesAlike (.next u) (.next v) :=
  .inl ⟨u, v, rfl, rfl, h⟩

theorem OutcomesAlike.refused (r : Refusal) : OutcomesAlike (.refused r) (.refused r) := .inr ⟨r, rfl, rfl⟩

theorem State.Alike.blockOut {s t : State} (h : s.Alike t) : s.blockOut = t.blockOut := congrArg View.blockOut h.1

theorem State.Alike.quietPins {s t : State} (h : s.Alike t) : s.quietPins = t.quietPins := by
  obtain ⟨-, hv, hn, hd, -⟩ := h
  rw [State.quietPins, State.quietPins, hv, hn, hd]

theorem State.Alike.host {s t : State} (h : s.Alike t) : s.host = t.host := by
  obtain ⟨-, -, -, -, -, hhost, -⟩ := h
  exact hhost

theorem State.Alike.edgesLeft {s t : State} (h : s.Alike t) : s.seq.edgesLeft = t.seq.edgesLeft := by
  obtain ⟨-, -, -, -, hseq, -⟩ := h
  rw [hseq]

theorem presentEdge_alike {s t : State} (h : s.Alike t) (op : BitVec 2) (key : Key) (blk : Block) :
    OutcomesAlike (presentEdge op key blk s) (presentEdge op key blk t) := by
  rw [presentEdge, presentEdge]
  cases Op.ofCode op with
  | none => exact .refused _
  | some o => exact .next (accept_alike h o key blk)

theorem busyEdge_alike {s t : State} (h : s.Alike t) (hb : s.busy = true) (hi : s.Inv) :
    (busyEdge s).Alike (busyEdge t) := by
  rw [busyEdge, busyEdge, h.edgesLeft]
  split
  · exact complete_alike h hb hi.1
  · exact advance_alike h hb hi

theorem clockEdge_alike {s t : State} (h : s.Alike t) (hi : s.Inv) (p : Pins) :
    OutcomesAlike (clockEdge p s) (clockEdge p t) := by
  have hbusy := h.flags.1
  have hd := driveRotator_alike h p.rotDir p.rotV p.rotAmt
  cases hr : p.rst with
  | true =>
    rw [clockEdge_reset hr, clockEdge_reset hr]
    exact .next (resetEdge_alike hd)
  | false =>
    cases hb : s.busy with
    | true =>
      rw [clockEdge_busy hr hb, clockEdge_busy hr (hbusy ▸ hb)]
      exact .next (busyEdge_alike hd hb (driveRotator_inv hi _ _ _))
    | false =>
      cases hs : p.start with
      | true =>
        rw [clockEdge_present hr hb hs, clockEdge_present hr (hbusy ▸ hb) hs]
        exact presentEdge_alike hd _ _ _
      | false =>
        rw [clockEdge_idle hr hb hs, clockEdge_idle hr (hbusy ▸ hb) hs]
        exact .next hd

theorem execReservedOp3_alike {s t : State} (h : s.Alike t) (key : Key) (blk : Block) :
    OutcomesAlike (execReservedOp3 key blk s) (execReservedOp3 key blk t) := by
  rw [execReservedOp3, execReservedOp3, h.flags.1]
  split
  · exact .next h
  · exact presentEdge_alike h _ _ _

theorem exec_alike {s t : State} (h : s.Alike t) (i : Instr) : OutcomesAlike (exec i s) (exec i t) := by
  cases i with
  | expand key blk => exact .next (runCommand_alike h _ _ _)
  | encrypt key blk => exact .next (runCommand_alike h _ _ _)
  | decrypt key blk => exact .next (runCommand_alike h _ _ _)
  | rotl v n => exact .next (driveRotator_alike h _ _ _)
  | rotr v n => exact .next (driveRotator_alike h _ _ _)
  | reservedOp3 key blk => exact execReservedOp3_alike h key blk

theorem beforeLine_alike {s t : State} (h : s.Alike t) (hf : s.FlagsOk) (i : Instr) :
    (beforeLine i s).Alike (beforeLine i t) := by
  have hw := waitIdle_alike h hf
  cases i with
  | expand key blk => exact hw
  | encrypt key blk => exact hw
  | decrypt key blk => exact hw
  | rotl v n => exact h
  | rotr v n => exact h
  | reservedOp3 key blk => exact hw

/-- The waiting core's `BLOCK_OUT` is an output, so the line presents the same block to both states. -/
theorem runLineOut_alike {s t : State} (h : s.Alike t) (hf : s.FlagsOk) (op : BitVec 2) (key : Key)
    (b0 b1 : BlockToken) : OutcomesAlike (runLineOut op key b0 b1 s) (runLineOut op key b0 b1 t) := by
  have hw := waitIdle_alike h hf
  cases hblk : lineBlock (waitIdle s).blockOut b0 b1 with
  | none =>
    rw [runLineOut_of_no_block hblk, runLineOut_of_no_block (hw.blockOut ▸ hblk)]
    exact .refused _
  | some blk =>
    rw [runLineOut_of_block hblk, runLineOut_of_block (hw.blockOut ▸ hblk)]
    exact exec_alike hw _

theorem step_alike {s t : State} (h : s.Alike t) (hi : s.Inv) : OutcomesAlike (step s) (step t) := by
  cases hs : s.host with
  | nil =>
    rw [step_no_move hs, step_no_move (h.host ▸ hs), ← h.quietPins]
    exact clockEdge_alike h hi _
  | cons m rest =>
    have hr := h.withHost rest
    have ht : t.host = m :: rest := h.host ▸ hs
    cases m with
    | line w =>
      rw [step_line hs, step_line ht]
      exact exec_alike (beforeLine_alike hr hi.1 _) _
    | lineOut op key b0 b1 =>
      rw [step_lineOut hs, step_lineOut ht]
      exact runLineOut_alike hr hi.1 _ _ _ _
    | edge p =>
      rw [step_edge hs, step_edge ht]
      exact clockEdge_alike hr (withHost_inv hi rest) p

/-! ## The life of a command at the clock (rules R35, R36, R55) -/

theorem Pins.presents.op_eq {p : Pins} {op : Op} (h : p.presents op) : p.op = op.code := by
  obtain ⟨-, -, hop⟩ := h
  exact hop

theorem exec_decodeCommand (op : Op) (key : Key) (blk : Block) (s : State) :
    exec (decodeCommand op.code key blk) s = .next (runCommand op key blk s) := by
  rw [decodeCommand, Op.ofCode_code]
  cases op <;> rfl

/-- The last edge of a running command is COMPLETE. -/
theorem clockEdge_last {p : Pins} {s : State} (hp : p.noReset) (hb : s.busy = true) (hl : s.seq.edgesLeft ≤ 1) :
    clockEdge p s = .next (complete (driveRotator p.rotDir p.rotV p.rotAmt s)) := by
  rw [clockEdge_busy hp hb, busyEdge, if_pos (by simpa using hl)]

/-- After ACCEPT and fewer than `LAT` edges the core is busy, both result flags are 0, and the edges left and the
micro-steps to do still lead to what the whole work list computes from the sampled operands. -/
theorem runEdges_before_complete {op : Op} {p : Pins} {ps : List Pins} {s : State} (hp : p.presents op)
    (hb : s.busy = false) (hps : ∀ q ∈ ps, q.noReset) (hlen : ps.length < latency op) :
    ∃ u, runEdges (p :: ps) s = .next u ∧ u.busy = true ∧ u.bv = false ∧ u.sv = false ∧ u.opr = op.code ∧
      u.draws = s.draws ∧ u.host = s.host ∧ u.seq.edgesLeft = latency op - ps.length ∧
      runSteps u.seq.todo u.regs = runSteps (commandSteps op) { s.regs with k := p.key, blk := p.blockIn } := by
  rw [runEdges_cons_of_next (clockEdge_accept hp hb)]
  exact runEdges_busy ps _ rfl hps hlen

/-- ACCEPT and `LAT` edges are the one atomic command, with the last edge's levels on the rotator's inputs. -/
theorem runEdges_command {op : Op} {p q : Pins} {ps : List Pins} {s : State} (hp : p.presents op)
    (hb : s.busy = false) (hlen : ps.length + 1 = latency op) (hps : ∀ x ∈ ps, x.noReset) (hq : q.noReset) :
    runEdges (p :: ps ++ [q]) s =
      .next (runCommand op p.key p.blockIn (driveRotator q.rotDir q.rotV q.rotAmt s)) := by
  obtain ⟨u, hu, hbusy, hbv, hsv, hopr, hdraws, hhost, hleft, hrun⟩ :=
    runEdges_before_complete hp hb hps (by omega)
  have hidle : (driveRotator q.rotDir q.rotV q.rotAmt s).busy = false := hb
  rw [runEdges_append_of_next hu, runEdges_cons_of_next (clockEdge_last hq hbusy (by omega)),
    runCommand_of_not_busy hidle, runEdges]
  congr 1
  exact complete_congr hopr hrun hdraws hbv hsv hhost rfl rfl rfl

/-- Edges with neither reset nor a command leave an idle core as it is, but for the levels on the rotator's inputs. -/
theorem runEdges_quiet (ps : List Pins) {s : State} (hb : s.busy = false) (hps : ∀ q ∈ ps, q.quiet) :
    ∃ d v n, runEdges ps s = .next (driveRotator d v n s) := by
  induction ps generalizing s with
  | nil => exact ⟨s.rotDir, s.rotV, s.rotAmt, rfl⟩
  | cons p ps ih =>
    obtain ⟨⟨hr, hs⟩, hps⟩ := List.forall_mem_cons.mp hps
    rw [runEdges_cons_of_next (clockEdge_idle hr hb hs)]
    exact ih hb hps

/-! ## The obligations of 10_state.md -/

/-- Settles O27: `step_inv`, by cases on the host's next move. -/
theorem stepKeepsInvariant : Obligations.StepKeepsInvariant := fun _ _ h ht => step_inv h ht

/-- Settles O28: `step_alike`; that the second state meets the invariant is not needed, since being alike carries the
flags over. -/
theorem hiddenRegistersNeverReachOutputs : Obligations.HiddenRegistersNeverReachOutputs :=
  fun _ _ hs _ h => step_alike h hs

/-- Settles O10: `INIT` overwrites all of `S`, and mixing starts from zero accumulators. -/
theorem scheduleWorkComputesKsa : Obligations.ScheduleWorkComputesKsa :=
  fun r => ⟨runSteps_schedule_s r, runSteps_schedule_blk r⟩

/-- Settles O20: `flatBus_word` at the three widths. -/
theorem flatBusPacking : Obligations.FlatBusPacking :=
  ⟨fun k j => flatBus_word k j j.isLt, fun b j => flatBus_word b j j.isLt, fun s j => flatBus_word s j j.isLt⟩

/-- Settles O23: the edges before the last by `runEdges_before_complete`, the whole list by `runEdges_command`. -/
theorem commandLifeCycle : Obligations.CommandLifeCycle := by
  intro op p ps s hp hb hlen hps
  constructor
  · intro n hn
    obtain ⟨u, hu, hbusy, hbv, hsv, -⟩ := runEdges_before_complete (ps := ps.take n) hp hb
      (fun q hq => hps q (List.mem_of_mem_take hq)) (by rw [List.length_take]; omega)
    exact ⟨u, hu, hbusy, hbv, hsv, State.blockOut_of_not_bv hbv, State.schedOut_of_not_sv hsv⟩
  · obtain rfl | ⟨init, q, rfl⟩ := List.eq_nil_or_concat ps
    · have := latency_pos op
      rw [List.length_nil] at hlen
      omega
    · rw [List.concat_eq_append] at hlen hps ⊢
      obtain ⟨hinit, hq⟩ := List.forall_mem_append.mp hps
      rw [← List.cons_append, runEdges_command hp hb (by simpa using hlen) hinit (hq q (by simp))]
      have hidle : (driveRotator q.rotDir q.rotV q.rotAmt s).busy = false := hb
      exact ⟨_, rfl, runCommand_shows hidle op p.key p.blockIn⟩

/-- Settles O24: both sides are `runCommand` of the operation on the sampled operands. -/
theorem clockEdgesRefineInstruction : Obligations.ClockEdgesRefineInstruction := by
  intro op p q ps s hp hb hlen hps hq
  rw [runEdges_command hp hb hlen hps hq, hp.op_eq, exec_decodeCommand]

/-- Settles O25: quiet edges write nothing but the levels on the rotator's inputs. -/
theorem resultStaysUntilNextCommand : Obligations.ResultStaysUntilNextCommand := by
  intro ps s hb hps
  obtain ⟨d, v, n, h⟩ := runEdges_quiet ps hb hps
  exact ⟨_, h, hb, rfl, rfl, rfl, rfl, rfl, rfl, rfl⟩

/-- Settles O19: the ports by their flags; the flags and `ROT_Y` are plain projections. -/
theorem outputPorts : Obligations.OutputPorts := fun _ =>
  ⟨State.blockOut_of_bv, State.blockOut_of_not_bv, State.schedOut_of_sv, State.schedOut_of_not_sv, rfl, rfl, rfl, rfl⟩

/-- Settles O21: the first 104 places from the key schedule's list, the later ones from each operation's own end. -/
theorem microStepLists : Obligations.MicroStepLists := by
  refine ⟨by simp [commandSteps_expand], by simp [commandSteps_encrypt], by simp [commandSteps_decrypt],
    fun i op => ?_, fun t op => ?_, ?_, fun i => ?_, ?_, fun i => ?_, ?_⟩
  · rw [commandSteps_getElem?_of_lt op (by omega), scheduleSteps_getElem?_init]
  · rw [commandSteps_getElem?_of_lt op (by omega), scheduleSteps_getElem?_mix]
  · rw [commandSteps_encrypt]
    exact schedule_append_getElem? _ 0
  · rw [commandSteps_encrypt, show 105 + i.val = 104 + (i.val + 1) by omega, schedule_append_getElem?]
    simp
  · rw [commandSteps_decrypt]
    exact schedule_append_getElem? _ 0
  · rw [commandSteps_decrypt, show 105 + i.val = 104 + (i.val + 1) by omega, schedule_append_getElem?,
      List.getElem?_cons_succ, List.getElem?_append_left (by simp)]
    simp
  · rw [commandSteps_decrypt]
    exact schedule_append_getElem? _ 13

/-- Settles O22: the edge is `accept` of the operation on the port's operands. -/
theorem acceptEdge : Obligations.AcceptEdge := by
  intro op p s hp hb
  exact ⟨_, clockEdge_accept hp hb, hp.op_eq.symm, rfl, rfl, rfl, rfl, rfl, rfl, rfl, rfl, rfl, rfl, latency_pos op,
    State.blockOut_of_not_bv rfl, State.schedOut_of_not_sv rfl, rfl⟩

/-- Settles O26: the reset state is idle and shows no result. -/
theorem resetMeetsInvariant : Obligations.ResetMeetsInvariant := inv_of_idle rfl rfl rfl

/-- Settles O34: the edge moves by what `clockEdge` does at quiet levels, the copying lines by the block that
`lineBlock` finds on the waiting core's `BLOCK_OUT`. -/
theorem stepRunsOtherMoves : Obligations.StepRunsOtherMoves := by
  refine ⟨fun p rest s h => step_edge h, fun s h hb => ?_, fun s h hb => ?_, fun op key b0 b1 rest s h => ?_⟩
  · rw [step_no_move h, clockEdge_idle rfl hb rfl]
    rfl
  · rw [step_no_move h, clockEdge_busy rfl hb]
    rfl
  · intro u
    have hu : u = waitIdle { s with host := rest } := rfl
    rw [step_lineOut h, hu]
    refine ⟨fun hbv => ?_, ?_, fun hbv hcopy => ?_⟩
    · exact runLineOut_of_block (lineBlock_of_bv hbv b0 b1) op
    · rintro w0 w1 rfl rfl
      exact runLineOut_of_block (lineBlock_lit _ w0 w1) op
    · exact runLineOut_of_no_block (by rw [State.blockOut_of_not_bv hbv, lineBlock_none_of_copy hcopy]) op key

end Sys2Proof.Machine

namespace Sys2Proof.Machine

/-! ## Systems of cores (rules R61, R157) -/

/-- A system keeps its number of cores. -/
theorem stepCore_length {sys u : List State} {n : Nat} (h : stepCore sys n = .next u) : u.length = sys.length := by
  obtain ⟨-, rfl⟩ | ⟨s, t, -, -, rfl⟩ := stepCore_cases h
  · rfl
  · exact List.length_set

/-- The frame of a step of one core: every other core stays as it is. -/
theorem stepCore_frame {sys u : List State} {n m : Nat} (h : stepCore sys n = .next u) (hm : m ≠ n) :
    u[m]? = sys[m]? := by
  obtain ⟨-, rfl⟩ | ⟨s, t, -, -, rfl⟩ := stepCore_cases h
  · rfl
  · exact List.getElem?_set_ne hm.symm

/-- The core that moves takes the step it would take alone. -/
theorem stepCore_own {sys u : List State} {n : Nat} {s : State} (hs : sys[n]? = some s)
    (h : stepCore sys n = .next u) : ∃ t, step s = .next t ∧ u[n]? = some t := by
  obtain ⟨hnone, -⟩ | ⟨s', t, hs', ht, rfl⟩ := stepCore_cases h
  · rw [hs] at hnone
    cases hnone
  · obtain rfl : s = s' := Option.some.inj (hs.symm.trans hs')
    obtain ⟨hn, -⟩ := List.getElem?_eq_some_iff.mp hs
    exact ⟨t, ht, List.getElem?_set_self hn⟩

/-- By what each of the two numbers names: a number that names no core leaves the other step as it is, and two cores
write two different places of the list. -/
theorem stepCore_comm {sys u w : List State} {n m : Nat} (hnm : n ≠ m) (hn : stepCore sys n = .next u)
    (hm : stepCore u m = .next w) : ∃ v, stepCore sys m = .next v ∧ stepCore v n = .next w := by
  have hsame : u[m]? = sys[m]? := stepCore_frame hn hnm.symm
  obtain ⟨hnone, rfl⟩ | ⟨s, t, hs, ht, rfl⟩ := stepCore_cases hn
  · exact ⟨w, hm, stepCore_none ((stepCore_frame hm hnm).trans hnone)⟩
  · obtain ⟨hnone, rfl⟩ | ⟨s', t', hs', ht', rfl⟩ := stepCore_cases hm
    · exact ⟨sys, stepCore_none (hsame.symm.trans hnone), hn⟩
    · refine ⟨sys.set m t', stepCore_some (hsame.symm.trans hs') ht', ?_⟩
      rw [stepCore_some ((List.getElem?_set_ne hnm.symm).trans hs) ht, List.set_comm t' t hnm.symm]

/-! ## Bytes on the host's side (rule R53(b)) -/

section
variable (b0 b1 b2 b3 : Byte)

@[simp] theorem wordOfBytes_byte0 : (wordOfBytes b0 b1 b2 b3).extractLsb' 0 8 = b0 :=
  BitVec.extractLsb'_append_eq_right

@[simp] theorem wordOfBytes_byte1 : (wordOfBytes b0 b1 b2 b3).extractLsb' 8 8 = b1 := by
  rw [wordOfBytes, BitVec.extractLsb'_append_eq_of_le (by decide)]
  exact BitVec.extractLsb'_append_eq_right

@[simp] theorem wordOfBytes_byte2 : (wordOfBytes b0 b1 b2 b3).extractLsb' 16 8 = b2 := by
  rw [wordOfBytes, BitVec.extractLsb'_append_eq_of_le (by decide), BitVec.extractLsb'_append_eq_of_le (by decide)]
  exact BitVec.extractLsb'_append_eq_right

@[simp] theorem wordOfBytes_byte3 : (wordOfBytes b0 b1 b2 b3).extractLsb' 24 8 = b3 := by
  rw [wordOfBytes, BitVec.extractLsb'_append_eq_of_le (by decide), BitVec.extractLsb'_append_eq_of_le (by decide)]
  exact BitVec.extractLsb'_append_eq_left

end

/-- The four bytes of a word are neighbouring slices, which join to the whole word. -/
@[simp] theorem wordOfBytes_byteOfWord (w : Word) :
    wordOfBytes (byteOfWord w 0) (byteOfWord w 1) (byteOfWord w 2) (byteOfWord w 3) = w := by
  rw [wordOfBytes, byteOfWord, byteOfWord, byteOfWord, byteOfWord,
    BitVec.extractLsb'_append_extractLsb'_eq_extractLsb' (by decide),
    BitVec.extractLsb'_append_extractLsb'_eq_extractLsb' (by decide),
    BitVec.extractLsb'_append_extractLsb'_eq_extractLsb' (by decide)]
  exact BitVec.extractLsb'_eq_self

/-! ## The obligations of 20_memory.md -/

/-- Settles O40: the step of the core itself by `stepCore_own`, the rest of the system by its frame, the two orders by
`stepCore_comm`. -/
theorem coresAreIndependent : Obligations.CoresAreIndependent := by
  refine ⟨fun sys u n s hs h => ?_, fun _ _ _ _ _ hnm hn hm => stepCore_comm hnm hn hm⟩
  obtain ⟨t, ht, hu⟩ := stepCore_own hs h
  exact ⟨by rw [hu, Option.getD_some, ht], stepCore_length h, fun m hm => stepCore_frame h hm⟩

/-- Settles O45: each byte of a made word by its lemma, the bytes of a word by the definition of `byteOfWord`, and the
spec's own word by evaluation. -/
theorem hostByteOrder : Obligations.HostByteOrder :=
  ⟨fun b0 b1 b2 b3 => ⟨wordOfBytes_byte0 b0 b1 b2 b3, wordOfBytes_byte1 b0 b1 b2 b3, wordOfBytes_byte2 b0 b1 b2 b3,
    wordOfBytes_byte3 b0 b1 b2 b3⟩, fun _ => ⟨rfl, rfl, rfl, rfl⟩, wordOfBytes_byteOfWord, by decide⟩

end Sys2Proof.Machine

namespace Sys2Proof

/-! ## The reserved code (rule R75) -/

theorem Op.ofCode_eq_none {op : BitVec 2} (h : Op.ofCode op = none) : op = 0b11#2 := by
  revert op
  decide

/-- Every code but the reserved one selects an operation (rule R71). -/
theorem Op.exists_code {op : BitVec 2} (h : op ≠ 0b11#2) : ∃ o : Op, op = o.code := by
  cases ho : Op.ofCode op with
  | none => exact absurd (ofCode_eq_none ho) h
  | some o => exact ⟨o, (code_of_ofCode ho).symm⟩

end Sys2Proof

namespace Sys2Proof.Machine

@[simp] theorem presentEdge_reserved (key : Key) (blk : Block) (s : State) :
    presentEdge 0b11#2 key blk s = .refused .reservedOp := by
  rw [presentEdge, Op.ofCode_reserved]

theorem exec_reservedOp3_of_not_busy {s : State} (h : s.busy = false) (key : Key) (blk : Block) :
    exec (.reservedOp3 key blk) s = .refused .reservedOp := by
  rw [exec, execReservedOp3, if_neg (by simp [h]), presentEdge_reserved]

theorem exec_reservedOp3_of_busy {s : State} (h : s.busy = true) (key : Key) (blk : Block) :
    exec (.reservedOp3 key blk) s = .next s := if_pos h

/-! ## Moves of a conforming host (rules R75, R155, R176) -/

/-- Only the reserved code can be left without a next state (rules R75, R150). -/
theorem exec_next_of_wellFormed {i : Instr} (h : i.wellFormed = true) (s : State) : ∃ t, exec i s = .next t := by
  cases i with
  | expand key blk => exact ⟨_, rfl⟩
  | encrypt key blk => exact ⟨_, rfl⟩
  | decrypt key blk => exact ⟨_, rfl⟩
  | rotl v n => exact ⟨_, rfl⟩
  | rotr v n => exact ⟨_, rfl⟩
  | reservedOp3 key blk => cases h

theorem clockEdge_next_of_conforming {p : Pins} {s : State} (h : (HostMove.edge p).conforming s) :
    ∃ t, clockEdge p s = .next t := by
  by_contra hno
  obtain ⟨hrst, hbusy, hstart, hcode, -⟩ := clockEdge_refused (not_exists.mp hno)
  obtain h | h | h | h := h
  · simp [hbusy] at h
  · simp [hrst] at h
  · simp [hstart] at h
  · exact h (Op.ofCode_eq_none hcode)

/-- The moves to come play no part in a wait. -/
theorem waitIdle_withHost (s : State) (l : List HostMove) :
    waitIdle { s with host := l } = { waitIdle s with host := l } := by
  unfold waitIdle
  split <;> rfl

@[simp] theorem waitIdle_host (s : State) : (waitIdle s).host = s.host := by
  unfold waitIdle
  split <;> rfl

/-- A conforming copying line finds a block to present, and its code selects an operation. -/
theorem runLineOut_next_of_conforming {op : BitVec 2} {key : Key} {b0 b1 : BlockToken} {s : State}
    (h : (HostMove.lineOut op key b0 b1).conforming s) : ∃ t, runLineOut op key b0 b1 s = .next t := by
  obtain ⟨hop, hblock⟩ := h
  obtain ⟨o, rfl⟩ := Op.exists_code hop
  have hfound : ∃ blk, lineBlock (waitIdle s).blockOut b0 b1 = some blk := by
    obtain hbv | ⟨⟨w0, rfl⟩, w1, rfl⟩ := hblock
    · exact ⟨_, lineBlock_of_bv hbv b0 b1⟩
    · exact ⟨_, lineBlock_lit _ w0 w1⟩
  obtain ⟨blk, hblk⟩ := hfound
  exact ⟨_, by rw [runLineOut_of_block hblk, exec_decodeCommand]⟩

/-- Whether a move conforms does not depend on the moves to come. -/
theorem HostMove.conforming_withHost {m : HostMove} {s : State} (h : m.conforming s) (l : List HostMove) :
    m.conforming { s with host := l } := by
  cases m with
  | line w => exact h
  | lineOut op key b0 b1 =>
    rw [HostMove.conforming, waitIdle_withHost]
    exact h
  | edge p => exact h

/-! ## Lines met while a command runs (rules R35, R77) -/

@[simp] theorem decode_encode (i : Instr) : decode (encode i) = i := by
  cases i with
  | expand key blk => exact Laws.RoundTrip.expand key blk
  | encrypt key blk => exact Laws.RoundTrip.encrypt key blk
  | decrypt key blk => exact Laws.RoundTrip.decrypt key blk
  | rotl v n => exact Laws.RoundTrip.rotl v n
  | rotr v n => exact Laws.RoundTrip.rotr v n
  | reservedOp3 key blk => exact Laws.RoundTrip.reservedOp3 key blk

/-- What a command presented to an idle core leaves (rules R118, R134, R145), with its frame on the moves to come. -/
theorem exec_command_shows {s : State} (h : s.busy = false) (op : Op) (key : Key) (blk : Block) :
    ∃ t, exec (decodeCommand op.code key blk) s = .next t ∧ t.Shows op key blk ∧ t.host = s.host := by
  obtain ⟨-, -, -, -, -, -, -, -, hhost⟩ := runCommand_frame h op key blk
  exact ⟨_, exec_decodeCommand op key blk s, runCommand_shows h op key blk, hhost⟩

/-- A command line waits, then runs its own operands on an idle core. -/
theorem runLine_command_shows (s : State) (op : Op) (key : Key) (blk : Block) :
    ∃ t, runLine (encode (decodeCommand op.code key blk)) s = .next t ∧ t.Shows op key blk ∧ t.host = s.host := by
  rw [runLine, decode_encode, beforeLine_decodeCommand, ← waitIdle_host s]
  exact exec_command_shows (waitIdle_busy s) op key blk

/-- A line that copies both words of a valid `BLOCK_OUT` runs on the block that stands there. -/
theorem runLineOut_copy_shows {s : State} {blk : Block} (h : (waitIdle s).blockOut = some blk) (op : Op) (key : Key) :
    ∃ t, runLineOut op.code key .out0 .out1 s = .next t ∧ t.Shows op key blk ∧ t.host = s.host := by
  have hblk : lineBlock (waitIdle s).blockOut .out0 .out1 = some blk := by
    rw [h]
    exact congrArg some (Block.eta blk)
  rw [runLineOut_of_block hblk, ← waitIdle_host s]
  exact exec_command_shows (waitIdle_busy s) op key blk

/-- Waiting from any edge between ACCEPT and COMPLETE ends as the atomic command does, at the levels that the rotator's
inputs then have (rule R36). -/
theorem waitIdle_of_runEdges {op : Op} {p : Pins} {ps : List Pins} {s t : State} (hp : p.presents op)
    (hb : s.busy = false) (hlen : ps.length < latency op) (hps : ∀ q ∈ ps, q.noReset)
    (ht : runEdges (p :: ps) s = .next t) :
    waitIdle t = runCommand op p.key p.blockIn (driveRotator t.rotDir t.rotV t.rotAmt s) := by
  obtain ⟨u, hu, hbusy, hbv, hsv, hopr, hdraws, hhost, -, hrun⟩ := runEdges_before_complete hp hb hps hlen
  obtain rfl : u = t := Host.Outcome.next.inj (hu.symm.trans ht)
  have hidle : (driveRotator u.rotDir u.rotV u.rotAmt s).busy = false := hb
  rw [waitIdle_of_busy hbusy, runCommand_of_not_busy hidle]
  exact complete_congr hopr hrun hdraws hbv hsv hhost rfl rfl rfl

/-- The moves to come play no part in what a state shows. -/
theorem State.Shows.withHost {t : State} {op : Op} {key : Key} {blk : Block} (h : t.Shows op key blk)
    (l : List HostMove) : State.Shows { t with host := l } op key blk := by
  cases op <;> exact h

/-- A line met between ACCEPT and COMPLETE finds, when it has waited, the running command's result. -/
theorem waitIdle_shows_running {op : Op} {p : Pins} {ps : List Pins} {s t : State} (hp : p.presents op)
    (hb : s.busy = false) (hlen : ps.length < latency op) (hps : ∀ q ∈ ps, q.noReset)
    (ht : runEdges (p :: ps) s = .next t) (rest : List HostMove) :
    (waitIdle { t with host := rest }).Shows op p.key p.blockIn := by
  have hidle : (driveRotator t.rotDir t.rotV t.rotAmt s).busy = false := hb
  rw [waitIdle_withHost, waitIdle_of_runEdges hp hb hlen hps ht]
  exact (runCommand_shows hidle op p.key p.blockIn).withHost rest

/-! ## The obligations of 30_encoding.md -/

/-- Settles O29: one round trip for each constructor of the instruction. -/
theorem decodeOfEncode : Obligations.DecodeOfEncode := decode_encode

/-- Settles O30: a row of either format is the wires of the tuple that the decoder reads from it. -/
theorem encodeOfDecode : Obligations.EncodeOfDecode := by
  intro w
  cases w with
  | cmd w => rw [decode, encode_decodeCommand, commandWires_of_wires]
  | rot w => rw [decode, encode_decodeRotator, rotatorWires_of_wires]

/-- Settles O37: by the host's next move; without one, the edge presents nothing. -/
theorem conformingHostNeverStops : Obligations.ConformingHostNeverStops := by
  intro s hmove
  cases hs : s.host with
  | nil =>
    rw [step_no_move hs]
    exact clockEdge_next_of_conforming (.inr (.inr (.inl rfl)))
  | cons m rest =>
    have hm := HostMove.conforming_withHost (hmove m rest hs) rest
    cases m with
    | line w =>
      rw [step_line hs]
      exact exec_next_of_wellFormed hm _
    | lineOut op key b0 b1 =>
      rw [step_lineOut hs]
      exact runLineOut_next_of_conforming hm
    | edge p =>
      rw [step_edge hs]
      exact clockEdge_next_of_conforming hm

/-- Settles O46: the wait ends with the running command's result on its port, which a copying line then presents. -/
theorem lineWaitsForRunningCommand : Obligations.LineWaitsForRunningCommand := by
  intro op p ps s0 s rest next key blk hp hb hlen hps hs
  have hwait := waitIdle_shows_running hp hb hlen hps hs rest
  refine ⟨runLine_command_shows { s with host := rest } next key blk, ?_, ?_, ?_⟩
  · rintro rfl
    obtain ⟨-, -, -, hbv⟩ := hwait
    exact runLineOut_of_no_block
      (by rw [State.blockOut_of_not_bv hbv, lineBlock_none_of_copy (.inl rfl)]) next.code key
  · rintro rfl
    obtain ⟨-, hout, -⟩ := hwait
    exact runLineOut_copy_shows hout next key
  · rintro rfl
    obtain ⟨-, hout, -⟩ := hwait
    exact runLineOut_copy_shows hout next key

/-- Settles O31: eight written-out words, each decoded by evaluation. -/
theorem writtenOutWords : Obligations.WrittenOutWords :=
  ⟨by decide, by decide, by decide, by decide, by decide, by decide, by decide, by decide⟩

/-- Settles O32: refused where `presentEdge` is reached; while `BUSY = 1` no edge reads `OP`. -/
theorem reservedCode : Obligations.ReservedCode := by
  refine ⟨fun key blk s hb => exec_reservedOp3_of_not_busy hb key blk, fun p s hb hrst hstart hop => ?_,
    fun key blk s hb => exec_reservedOp3_of_busy hb key blk, fun p s hb hrst => ?_⟩
  · rw [clockEdge_present hrst hb hstart, hop, presentEdge_reserved]
  · rw [clockEdge_busy hrst hb, clockEdge_busy (p := { p with op := 0b11#2 }) hrst hb]

/-- Settles O33: by what comes before the instruction of a line. -/
theorem stepRunsDecodedInstruction : Obligations.StepRunsDecodedInstruction := by
  intro w rest s hs
  rw [step_line hs]
  refine ⟨fun hb => ?_, fun v amt hrot => ?_, fun op key blk hcmd hb => ?_⟩
  · rw [beforeLine_of_not_busy (s := { s with host := rest }) hb]
  · obtain h | h := hrot <;> rw [h, beforeLine]
  · rw [hcmd, beforeLine_decodeCommand, waitIdle_of_busy (s := { s with host := rest }) hb]

/-- Settles O35: the placed word is a line, and an idle core needs no wait. -/
theorem fetchedWordRunsNext : Obligations.FetchedWordRunsNext := by
  intro nbits w s hb
  have hline : step (s.withFetchWord nbits w) =
      exec (decode (fetchWord nbits w)) (beforeLine (decode (fetchWord nbits w)) s) := step_line rfl
  rw [hline, beforeLine_of_not_busy hb]

end Sys2Proof.Machine

namespace Sys2Proof.Machine

/-! ## The rotator (rules R90 to R94)

The bits of a rotation carry its laws; its number and the port follow from them. -/

/-- A left rotation moves bit `j` up by the amount, around the word (rule R92). -/
theorem rotl_getLsbD_add_mod (v : Word) (n : Nat) {j : Nat} (hj : j < 32) :
    (rotl v n).getLsbD ((j + n) % 32) = v.getLsbD j := by
  rw [← rotr_getLsbD _ n hj, rotr_rotl]

theorem rotr_eq_rotl_sub (v : Word) (n : Nat) : rotr v n = rotl v ((32 - n % 32) % 32) := by
  apply BitVec.eq_of_getLsbD_eq
  intro i hi
  rw [rotr_getLsbD _ _ hi, rotl_getLsbD _ _ hi]
  congr 1
  omega

theorem rotl_eq_rotr_sub (v : Word) (n : Nat) : rotl v n = rotr v ((32 - n % 32) % 32) := by
  rw [rotr_eq_rotl_sub, ← rotl_mod]
  congr 1
  omega

/-- Rotations compose by adding their amounts (rule R94 item 4). -/
theorem rotl_rotl (v : Word) (m n : Nat) : rotl (rotl v m) n = rotl v (m + n) := by
  apply BitVec.eq_of_getLsbD_eq
  intro i hi
  rw [rotl_getLsbD _ _ hi, rotl_getLsbD _ _ (Nat.mod_lt _ (by decide)), rotl_getLsbD _ _ hi]
  congr 1
  omega

theorem rotl_xor (x y : Word) (n : Nat) : rotl (x ^^^ y) n = rotl x n ^^^ rotl y n := by
  apply BitVec.eq_of_getLsbD_eq
  intro i hi
  simp only [BitVec.getLsbD_xor, rotl_getLsbD _ _ hi]

/-- A word whose bits are all equal is invariant under rotation. -/
theorem rotl_of_bits_eq {v : Word} {b : Bool} (h : ∀ i < 32, v.getLsbD i = b) (n : Nat) : rotl v n = v := by
  apply BitVec.eq_of_getLsbD_eq
  intro i hi
  rw [rotl_getLsbD _ _ hi, h i hi, h _ (Nat.mod_lt _ (by decide))]

@[simp] theorem rotl_zero_word (n : Nat) : rotl 0#32 n = 0#32 := rotl_of_bits_eq (fun _ _ => BitVec.getLsbD_zero) n

@[simp] theorem rotl_allOnes (n : Nat) : rotl 0xFFFFFFFF#32 n = 0xFFFFFFFF#32 :=
  rotl_of_bits_eq (b := true) (by decide) n

@[simp] theorem rotr_zero_word (n : Nat) : rotr 0#32 n = 0#32 := by rw [rotr_eq_rotl_sub, rotl_zero_word]

@[simp] theorem rotr_allOnes (n : Nat) : rotr 0xFFFFFFFF#32 n = 0xFFFFFFFF#32 := by
  rw [rotr_eq_rotl_sub, rotl_allOnes]

/-- By half the width, the half-words change places (rule R92). -/
theorem rotl_half {n : Nat} (h : n % 32 = 16) (v : Word) :
    rotl v n = v.extractLsb' 0 16 ++ v.extractLsb' 16 16 := by
  apply BitVec.eq_of_getLsbD_eq
  intro i hi
  rw [rotl_getLsbD _ _ hi, h, BitVec.getLsbD_append]
  by_cases hlow : i < 16
  · rw [if_pos hlow, BitVec.getLsbD_extractLsb', decide_eq_true hlow, Bool.true_and]
    congr 1
    omega
  · rw [if_neg hlow, BitVec.getLsbD_extractLsb', decide_eq_true (by omega), Bool.true_and]
    congr 1
    omega

theorem rotr_half {n : Nat} (h : n % 32 = 16) (v : Word) :
    rotr v n = v.extractLsb' 0 16 ++ v.extractLsb' 16 16 := by
  rw [rotr_eq_rotl_sub, rotl_half (by omega)]

/-- The number of rule R92's pseudocode fits the word. -/
theorem rotl_toNat (v : Word) (n : Nat) :
    (rotl v n).toNat = v.toNat * 2 ^ (n % 32) % 2 ^ 32 + v.toNat / 2 ^ (32 - n % 32) := by
  have hlt : n % 32 < 32 := Nat.mod_lt _ (by decide)
  have key := nat_rotate_eq_or (x := v.toNat) (m := n % 32) (k := 32 - n % 32)
    (by rw [Nat.sub_add_cancel hlt.le]; exact v.isLt)
  rw [Nat.sub_add_cancel hlt.le] at key
  rw [rotl_eq_rotateLeft, BitVec.toNat_rotateLeft, key]

/-- The number of rule R93's pseudocode fits the word: it is the left rotation's by the complementary amount. -/
theorem rotr_toNat {n : Nat} (h : n % 32 ≠ 0) (v : Word) :
    (rotr v n).toNat = v.toNat / 2 ^ (n % 32) + v.toNat % 2 ^ (n % 32) * 2 ^ (32 - n % 32) := by
  have hlt : n % 32 < 32 := Nat.mod_lt _ (by decide)
  have hpow : 2 ^ 32 = 2 ^ (n % 32) * 2 ^ (32 - n % 32) := by rw [← pow_add, Nat.add_sub_cancel' hlt.le]
  have hcompl : (32 - n % 32) % 32 = 32 - n % 32 := Nat.mod_eq_of_lt (by omega)
  rw [rotr_eq_rotl_sub, rotl_mod, rotl_toNat, hcompl, Nat.sub_sub_self hlt.le, hpow,
    Nat.mul_mod_mul_right, Nat.add_comm]

/-! ### The number of 1 bits (rule R94 item 5) -/

theorem range_rotate (n : Nat) : (List.range 32).rotate n = (List.range 32).map fun j => (j + n) % 32 :=
  List.ext_getElem (by simp) fun k _ _ => by simp [List.getElem_rotate]

/-- A right rotation reads the places of the word in a rotated order. -/
theorem onesIn_rotr (v : Word) (n : Nat) : onesIn (rotr v n) = onesIn v := by
  calc onesIn (rotr v n)
      = (List.range 32).countP (fun j => v.getLsbD ((j + n) % 32)) :=
        List.countP_congr fun j hj => by rw [rotr_getLsbD _ _ (List.mem_range.mp hj)]
    _ = ((List.range 32).rotate n).countP (fun j => v.getLsbD j) := by rw [range_rotate, List.countP_map]; rfl
    _ = onesIn v := (List.rotate_perm _ n).countP_eq _

theorem onesIn_rotl (v : Word) (n : Nat) : onesIn (rotl v n) = onesIn v := by
  rw [← onesIn_rotr (rotl v n) n, rotr_rotl]

/-- `2 ^ 32` is a multiple of 32, so the wraparound of a sum does not reach its low five bits (rule R94 item 6). -/
theorem amountOf_add (a b : Word) : amountOf (a + b) = (a.toNat + b.toNat) % 32 := by
  rw [amountOf_eq_mod, BitVec.toNat_add, Nat.mod_mod_of_dvd _ (by decide)]

/-! ### The port (rules R72, R90, R91) -/

@[simp] theorem rotator_left (v : Word) (amount : BitVec 8) : rotator 0#1 v amount = rotl v amount.toNat := if_pos rfl

@[simp] theorem rotator_right (v : Word) (amount : BitVec 8) : rotator 1#1 v amount = rotr v amount.toNat :=
  if_neg (by decide)

/-- Only the amount modulo 32 reaches `ROT_Y`. -/
theorem rotator_congr {n m : BitVec 8} (h : n.toNat % 32 = m.toNat % 32) (dir : BitVec 1) (v : Word) :
    rotator dir v n = rotator dir v m := by
  obtain rfl | rfl := BitVec.eq_zero_or_eq_one dir
  · rw [rotator_left, rotator_left, ← rotl_mod, h, rotl_mod]
  · rw [rotator_right, rotator_right, ← rotr_mod, h, rotr_mod]

theorem rotator_of_mod_zero {n : BitVec 8} (h : n.toNat % 32 = 0) (dir : BitVec 1) (v : Word) :
    rotator dir v n = v := by
  obtain rfl | rfl := BitVec.eq_zero_or_eq_one dir
  · rw [rotator_left, rotl_of_mod_zero h]
  · rw [rotator_right, rotr_of_mod_zero h]

/-- Masking with 31 is reduction modulo 32 (rule R91). -/
theorem toNat_and_31 (n : BitVec 8) : (n &&& 31#8).toNat = n.toNat % 32 := by
  rw [BitVec.toNat_and]
  exact Nat.and_two_pow_sub_one_eq_mod _ 5

/-! ### `ROT_Y` under the operations of the core (rules R25, R90) -/

@[simp] theorem rotY_accept (op : Op) (key : Key) (blk : Block) (s : State) : (accept op key blk s).rotY = s.rotY := rfl
@[simp] theorem rotY_complete (s : State) : (complete s).rotY = s.rotY := rfl
@[simp] theorem rotY_advance (s : State) : (advance s).rotY = s.rotY := rfl
@[simp] theorem rotY_resetEdge (s : State) : (resetEdge s).rotY = s.rotY := rfl

@[simp] theorem rotY_runCommand (op : Op) (key : Key) (blk : Block) (s : State) :
    (runCommand op key blk s).rotY = s.rotY := by
  cases hb : s.busy with
  | true => rw [runCommand_of_busy hb]
  | false => rw [runCommand_of_not_busy hb, rotY_complete, rotY_accept]

/-- Whatever an edge does to the command side, `ROT_Y` goes by the edge's own levels. -/
theorem rotY_of_clockEdge {p : Pins} {s t : State} (h : clockEdge p s = .next t) :
    t.rotY = rotator p.rotDir p.rotV p.rotAmt := by
  obtain ⟨-, rfl⟩ | ⟨-, -, -, rfl⟩ | ⟨-, -, -, rfl⟩ | ⟨op, -, -, rfl⟩ | ⟨-, -, rfl⟩ := clockEdge_cases h
  · rw [rotY_resetEdge, rotY_driveRotator]
  · rw [rotY_advance, rotY_driveRotator]
  · rw [rotY_complete, rotY_driveRotator]
  · rw [rotY_accept, rotY_driveRotator]
  · rw [rotY_driveRotator]

/-- A rotator operation sets the levels on the rotator's inputs, in every state. -/
theorem exec_decodeRotator (dir : BitVec 1) (v : Word) (amount : BitVec 8) (s : State) :
    exec (decodeRotator dir v amount) s = .next (driveRotator dir v amount s) := by
  obtain rfl | rfl := BitVec.eq_zero_or_eq_one dir
  · rfl
  · rfl

/-! ## The obligations of 40_rotator.md -/

/-- Settles O3: `ROT_Y` is `rotl` of the operand, whose number, bits and corner cases have their lemmas. -/
theorem rotlResultAndFrame : Obligations.RotlResultAndFrame := by
  refine ⟨fun v amt s => ?_, by decide, by decide, by decide⟩
  intro n t
  have hy : t.rotY = rotl v amt.toNat := rotator_left v amt
  rw [hy]
  refine ⟨rfl, rfl, ?_, fun j hj => ?_, ?_, ?_, fun h => rotl_half h v⟩
  · split
    · next h => rw [rotl_of_mod_zero h]
    · exact rotl_toNat v _
  · rw [Nat.add_mod_mod, rotl_getLsbD_add_mod v _ hj]
  · rintro rfl
    exact rotl_zero_word _
  · rintro rfl
    exact rotl_allOnes _

/-- Settles O4: `ROT_Y` is `rotr` of the operand, whose number, bits and corner cases have their lemmas. -/
theorem rotrResultAndFrame : Obligations.RotrResultAndFrame := by
  refine ⟨fun v amt s => ?_, by decide, by decide, by decide⟩
  intro n t
  have hy : t.rotY = rotr v amt.toNat := rotator_right v amt
  rw [hy]
  refine ⟨rfl, rfl, ?_, fun j hj => ?_, ?_, ?_, fun h => rotr_half h v⟩
  · split
    · next h => rw [rotr_of_mod_zero h]
    · next h => exact rotr_toNat h v
  · rw [Nat.add_mod_mod, rotr_getLsbD v _ hj]
  · rintro rfl
    exact rotr_zero_word _
  · rintro rfl
    exact rotr_allOnes _

/-- Settles O5: one lemma for each law; a carry out of the top bit refutes distribution over addition. -/
theorem rotateLaws : Obligations.RotateLaws := by
  refine ⟨fun v n => ⟨(rotl_mod v n).symm, (rotr_mod v n).symm⟩,
    fun v n => ⟨rotr_eq_rotl_sub v n, rotl_eq_rotr_sub v n⟩, fun v n => ⟨rotr_rotl v n, rotl_rotr v n⟩, rotl_rotl,
    fun v => ⟨rotl_of_mod_zero rfl v, rotr_of_mod_zero rfl v, rotl_of_mod_zero rfl v⟩, rotl_xor,
    fun v n => ⟨onesIn_rotl v n, onesIn_rotr v n⟩, ⟨0x80000000#32, 0x80000000#32, 1, by decide⟩,
    fun a b => ⟨(amountOf_add a b).symm, ?_⟩⟩
  rw [amountOf_add, amountOf_eq_mod, amountOf_eq_mod, ← Nat.add_mod]

/-- Settles O1: the edges by `rotY_of_clockEdge`; a rotator operation writes only the levels on the inputs. -/
theorem rotatorIsCombinational : Obligations.RotatorIsCombinational :=
  ⟨fun _ _ _ h => rotY_of_clockEdge h, rotY_runCommand, fun dir v amt s =>
    ⟨_, exec_decodeRotator dir v amt s, rfl, rfl, rfl, rfl, rfl, rfl, rfl, rfl, rfl⟩⟩

/-- Settles O2: the port's two reductions are `rotator_congr` of amounts with the same remainder. -/
theorem rotateAmountIsReduced : Obligations.RotateAmountIsReduced :=
  ⟨fun v n => ⟨(rotl_mod v n).symm, (rotr_mod v n).symm⟩,
    fun dir v amt => rotator_congr (by rw [toNat_and_31, Nat.mod_mod]) dir v,
    fun dir v _ h => rotator_of_mod_zero h dir v, fun dir v => rotator_congr (by decide) dir v⟩

end Sys2Proof.Machine

namespace Sys2Proof.Machine

/-! ## The initial schedule (rules R112, R113) -/

/-- The closed form of the recurrence of rule R112. -/
theorem initWord_eq_add_mul (i : Nat) : initWord i = Config.p32 + BitVec.ofNat 32 i * Config.q32 := by
  induction i with
  | zero => simp [initWord]
  | succ i ih =>
    rw [initWord, ih, BitVec.ofNat_add, BitVec.add_mul, BitVec.add_assoc]
    simp

@[simp] theorem initSchedule_getElem (i : Nat) (h : i < 26) : initSchedule[i] = initWord i := Vector.getElem_ofFn h

/-! ## One mixing step, word by word (rules R114 to R116) -/

@[simp] theorem Regs.startMix_s (r : Regs) (t : Fin 78) : (r.startMix t).s = r.s := by
  rw [Regs.startMix, apply_ite Regs.s, ite_self]

@[simp] theorem Regs.startMix_k (r : Regs) (t : Fin 78) : (r.startMix t).k = r.k := by
  rw [Regs.startMix, apply_ite Regs.k, ite_self]

@[simp] theorem Regs.startMix_a (r : Regs) (t : Fin 78) : (r.startMix t).a = if t.val = 0 then 0#32 else r.a := by
  rw [Regs.startMix, apply_ite Regs.a]
  rfl

@[simp] theorem Regs.startMix_b (r : Regs) (t : Fin 78) : (r.startMix t).b = if t.val = 0 then 0#32 else r.b := by
  rw [Regs.startMix, apply_ite Regs.b]
  rfl

@[simp] theorem Regs.mixer_s (r : Regs) : r.mixer.s = r.s := rfl
@[simp] theorem Regs.mixer_k (r : Regs) : r.mixer.k = r.k := rfl
@[simp] theorem Regs.mixer_a (r : Regs) : r.mixer.a = r.a := rfl
@[simp] theorem Regs.mixer_b (r : Regs) : r.mixer.b = r.b := rfl
@[simp] theorem Regs.k_withMixer (r : Regs) (m : Mixer) : (r.withMixer m).k = m.k := rfl
@[simp] theorem Regs.a_withMixer (r : Regs) (m : Mixer) : (r.withMixer m).a = m.a := rfl
@[simp] theorem Regs.b_withMixer (r : Regs) (m : Mixer) : (r.withMixer m).b = m.b := rfl

theorem mixStep_s_getElem_cursor (m : Mixer) (t : Fin 78) :
    (mixStep m t).s[t.val % 26] = (mixStep m t).a := by
  simp only [mixStep_s, Vector.getElem_set_self]

theorem mixStep_s_getElem_of_ne (m : Mixer) (t : Fin 78) {i : Nat} (hi : i < 26) (h : i ≠ t.val % 26) :
    (mixStep m t).s[i] = m.s[i] := by
  simp only [mixStep_s, Vector.getElem_set_ne _ _ h.symm]

theorem mixStep_k_getElem_cursor (m : Mixer) (t : Fin 78) :
    (mixStep m t).k[t.val % 4] = (mixStep m t).b := by
  simp only [mixStep_k, Vector.getElem_set_self]

theorem mixStep_k_getElem_of_ne (m : Mixer) (t : Fin 78) {j : Nat} (hj : j < 4) (h : j ≠ t.val % 4) :
    (mixStep m t).k[j] = m.k[j] := by
  simp only [mixStep_k, Vector.getElem_set_ne _ _ h.symm]

/-! The same of the micro-step `MIX(t)`, from accumulators that are 0 before step 0. -/

/-- `MIX(t)` is the pure mixing step on the mixer part. -/
theorem microStep_mix (r : Regs) (t : Fin 78) :
    microStep r (.mix t) = r.withMixer (mixStep (r.startMix t).mixer t) := rfl

section
variable (r : Regs) (t : Fin 78)

theorem microStep_mix_a :
    (microStep r (.mix t)).a =
      rotl (r.s[t.val % 26] + (if t.val = 0 then 0#32 else r.a) + (if t.val = 0 then 0#32 else r.b)) 3 := by
  simp [microStep_mix, mixStep_a, Config.rotS]

theorem microStep_mix_b :
    (microStep r (.mix t)).b =
      rotl (r.k[t.val % 4] + (microStep r (.mix t)).a + (if t.val = 0 then 0#32 else r.b))
        (((microStep r (.mix t)).a + (if t.val = 0 then 0#32 else r.b)).toNat % 32) := by
  simp [microStep_mix, mixStep_b, amountOf_eq_mod]

theorem microStep_mix_s_cursor : (microStep r (.mix t)).s[t.val % 26] = (microStep r (.mix t)).a :=
  mixStep_s_getElem_cursor _ t

theorem microStep_mix_k_cursor : (microStep r (.mix t)).k[t.val % 4] = (microStep r (.mix t)).b :=
  mixStep_k_getElem_cursor _ t

theorem microStep_mix_s_of_ne {i : Nat} (hi : i < 26) (h : i ≠ t.val % 26) :
    (microStep r (.mix t)).s[i] = r.s[i] := by
  simp [microStep_mix, mixStep_s_getElem_of_ne _ t hi h]

theorem microStep_mix_k_of_ne {j : Nat} (hj : j < 4) (h : j ≠ t.val % 4) :
    (microStep r (.mix t)).k[j] = r.k[j] := by
  simp [microStep_mix, mixStep_k_getElem_of_ne _ t hj h]

@[simp] theorem microStep_mix_blk : (microStep r (.mix t)).blk = r.blk := by
  rw [microStep_mix, Regs.blk_withMixer]

end

/-! ## Which words a mixing step writes (rule R116) -/

/-- Registers from which every mixing step changes both words under its cursors: it writes 8 over a 1 of `S`, and
`0x800` over a 0 of `K`. -/
def mixProbe : Regs :=
  { a := 0#32, b := 0#32, s := Vector.replicate 26 1#32, k := Vector.replicate 4 0#32, blk := #v[0#32, 0#32] }

theorem mixProbe_a (t : Fin 78) : (microStep mixProbe (.mix t)).a = 8#32 := by
  simp only [microStep_mix_a, mixProbe, ite_self, Vector.getElem_replicate]
  decide

theorem mixProbe_b (t : Fin 78) : (microStep mixProbe (.mix t)).b = 0x800#32 := by
  rw [microStep_mix_b, mixProbe_a]
  simp only [mixProbe, ite_self, Vector.getElem_replicate]
  decide

theorem mix_writesS_iff (t : Fin 78) (i : Fin 26) : (MicroStep.mix t).WritesS i ↔ i.val = t.val % 26 := by
  constructor
  · rintro ⟨r, hr⟩
    by_contra hne
    exact hr (microStep_mix_s_of_ne r t i.isLt hne)
  · intro h
    obtain rfl : i = cursorS t := Fin.ext h
    have hnew : (microStep mixProbe (.mix t)).s[cursorS t] = 8#32 :=
      (microStep_mix_s_cursor mixProbe t).trans (mixProbe_a t)
    have hold : mixProbe.s[cursorS t] = 1#32 := Vector.getElem_replicate _
    refine ⟨mixProbe, ?_⟩
    rw [hnew, hold]
    decide

theorem mix_writesK_iff (t : Fin 78) (j : Fin 4) : (MicroStep.mix t).WritesK j ↔ j.val = t.val % 4 := by
  constructor
  · rintro ⟨r, hr⟩
    by_contra hne
    exact hr (microStep_mix_k_of_ne r t j.isLt hne)
  · intro h
    obtain rfl : j = cursorK t := Fin.ext h
    have hnew : (microStep mixProbe (.mix t)).k[cursorK t] = 0x800#32 :=
      (microStep_mix_k_cursor mixProbe t).trans (mixProbe_b t)
    have hold : mixProbe.k[cursorK t] = 0#32 := Vector.getElem_replicate _
    refine ⟨mixProbe, ?_⟩
    rw [hnew, hold]
    decide

theorem mixNumber_scheduleSteps : scheduleSteps.filterMap MicroStep.mixNumber = List.finRange 78 := by
  have hinit : MicroStep.mixNumber ∘ MicroStep.init = fun _ => none := rfl
  have hmix : MicroStep.mixNumber ∘ MicroStep.mix = some := rfl
  rw [scheduleSteps, List.filterMap_append, List.filterMap_map, List.filterMap_map, hinit, hmix, List.filterMap_some]
  simp

/-- Every operation mixes in its key schedule and nowhere else. -/
theorem mixNumber_commandSteps (op : Op) : (commandSteps op).filterMap MicroStep.mixNumber = List.finRange 78 := by
  cases op with
  | expand => exact mixNumber_scheduleSteps
  | encrypt =>
    rw [commandSteps_encrypt, List.filterMap_append, mixNumber_scheduleSteps]
    exact List.append_nil _
  | decrypt =>
    rw [commandSteps_decrypt, List.filterMap_append, mixNumber_scheduleSteps]
    exact List.append_nil _

/-- The mixing ends with step 77. -/
theorem foldl_mixStep_last (m : Mixer) :
    (List.finRange 78).foldl mixStep m = mixStep (((List.finRange 78).take 77).foldl mixStep m) 77 := by
  have h := foldl_take_succ mixStep m 77 (by decide)
  rwa [List.take_of_length_le (by simp)] at h

/-! ## The loops of rule R121 -/

/-- A mixer holds what stands at point `t` of the sequences of contents of `S`, `K`, `A`, `B`. -/
def Mixer.HoldsAt (m : Mixer) (S K : Nat → Nat → Word) (A B : Nat → Word) (t : Nat) : Prop :=
  (∀ i, (h : i < 26) → m.s[i] = S t i) ∧ (∀ j, (h : j < 4) → m.k[j] = K t j) ∧ m.a = A t ∧ m.b = B t

section
variable {key : Key} {S K : Nat → Nat → Word} {A B : Nat → Word}

theorem initWord_of_followsKsa (h : FollowsKsa key S K A B) {i : Nat} (hi : i < 26) : initWord i = S 0 i := by
  obtain ⟨hfirst, hnext, -⟩ := h
  induction i with
  | zero => exact hfirst.symm
  | succ i ih => rw [hnext (i + 1) (by omega) (by omega), initWord, ih (by omega)]; rfl

theorem mixStart_holdsAt (h : FollowsKsa key S K A B) : (mixStart key).HoldsAt S K A B 0 := by
  have hS : ∀ i, (hi : i < 26) → (mixStart key).s[i] = S 0 i := fun i hi =>
    (initSchedule_getElem i hi).trans (initWord_of_followsKsa h hi)
  obtain ⟨-, -, hK, hA, hB, -⟩ := h
  exact ⟨hS, fun j hj => (hK ⟨j, hj⟩).symm, hA.symm, hB.symm⟩

theorem mixStep_holdsAt (h : FollowsKsa key S K A B) {m : Mixer} {t : Fin 78} (hm : m.HoldsAt S K A B t) :
    (mixStep m t).HoldsAt S K A B (t + 1) := by
  obtain ⟨-, -, -, -, -, hstep⟩ := h
  obtain ⟨hSnew, hA, hKnew, hB, hSframe, hKframe⟩ := hstep t t.isLt
  obtain ⟨hs, hk, ha, hb⟩ := hm
  have ha' : (mixStep m t).a = A (t + 1) := by
    rw [mixStep_a, hs, ha, hb, hA, hSnew, Config.rotS]
  have hb' : (mixStep m t).b = B (t + 1) := by
    rw [mixStep_b, ha', hk, hb, amountOf_eq_mod, hB, hKnew]
  refine ⟨fun i hi => ?_, fun j hj => ?_, ha', hb'⟩
  · by_cases hc : i = t.val % 26
    · subst hc
      rw [mixStep_s_getElem_cursor, ha', hA]
    · rw [mixStep_s_getElem_of_ne m t hi hc, hs i hi, hSframe i hi hc]
  · by_cases hc : j = t.val % 4
    · subst hc
      rw [mixStep_k_getElem_cursor, hb', hB]
    · rw [mixStep_k_getElem_of_ne m t hj hc, hk j hj, hKframe j hj hc]

/-- The mixing steps keep pace with the pseudocode, point by point. -/
theorem foldl_mixStep_holdsAt (h : FollowsKsa key S K A B) (t : Nat) (ht : t ≤ 78) :
    (((List.finRange 78).take t).foldl mixStep (mixStart key)).HoldsAt S K A B t := by
  induction t with
  | zero => exact mixStart_holdsAt h
  | succ t ih =>
    rw [foldl_take_succ _ _ t (by omega)]
    exact mixStep_holdsAt (t := ⟨t, by omega⟩) h (ih (by omega))

end

/-! ## The obligations of 41_key_schedule.md -/

/-- Settles O6: the `INIT` steps fill `S` by `foldl_initStep`, and the words have their closed form. -/
theorem initialSchedule : Obligations.InitialSchedule := by
  refine ⟨fun r => ?_, fun i => ?_, fun i h => ?_, by decide⟩
  · rw [runSteps_init, foldl_initStep]
  · exact (initSchedule_getElem i i.isLt).trans (initWord_eq_add_mul i)
  · rw [initSchedule_getElem, initSchedule_getElem, initWord, Config.q32]

/-- Settles O8: the words under the cursors are the words written, `mixProbe` showing that they are. -/
theorem mixingCursorLaws : Obligations.MixingCursorLaws := by
  refine ⟨mixNumber_commandSteps, fun op => ?_, fun t i => ?_, fun t j => ?_, fun j => ?_, fun t => ⟨rfl, rfl⟩,
    fun r => ⟨?_, ?_⟩, rfl, rfl, fun key => ?_, fun key => ?_⟩
  · rw [mixNumber_commandSteps, List.length_finRange]
  · rw [mix_writesS_iff]
    omega
  · rw [mix_writesK_iff, Fin.ext_iff]
    exact eq_comm
  · refine ⟨(List.finRange 78).filter fun t => j.val = t.val % 4, (List.nodup_finRange 78).filter _, ?_, fun t => ?_⟩
    · revert j
      decide
    · rw [mix_writesK_iff]
      simp
  · exact (microStep_mix_s_cursor r 77).symm
  · exact (microStep_mix_k_cursor r 77).symm
  · rw [foldl_mixStep_last]
    exact ⟨(mixStep_s_getElem_cursor _ 77).symm, (mixStep_k_getElem_cursor _ 77).symm⟩
  · refine (mixStep_s_getElem_cursor _ 0).trans ?_
    rw [mixStep_a]
    show rotl (initSchedule[0] + 0 + 0) 3 = _
    decide

/-- Settles O9: the mixer after each step holds what the pseudocode's sequences hold there. -/
theorem ksaFollowsItsPseudocode : Obligations.KsaFollowsItsPseudocode := by
  intro key S K A B h i
  obtain ⟨hs, -⟩ := foldl_mixStep_holdsAt h 78 le_rfl
  rw [List.take_of_length_le (by simp)] at hs
  exact hs i i.isLt

/-- Settles O11: `EXPAND` is `runCommand`, whose result and frame have their lemmas. -/
theorem expandResultAndFrame : Obligations.ExpandResultAndFrame := by
  intro key blk s hb
  obtain ⟨hbusy, hbv, hsv, hopr, hseq, hrotV, hrotAmt, hrotDir, hhost⟩ := runCommand_frame hb .expand key blk
  have hs := runCommand_expand hb key blk
  exact ⟨_, rfl, by rw [State.schedOut_of_sv hsv, hs], hs, hsv, hbusy, hbv, State.blockOut_of_not_bv hbv, hopr, hseq,
    hrotV, hrotAmt, hrotDir, rotY_runCommand _ _ _ _, hhost⟩

/-- Settles O7: the micro-step's lemmas, word by word; the cursor lines are arithmetic. -/
theorem mixingStep : Obligations.MixingStep := by
  intro r t a0 b0 u
  exact ⟨microStep_mix_a r t, microStep_mix_b r t, microStep_mix_s_cursor r t, microStep_mix_k_cursor r t,
    fun i h => microStep_mix_s_of_ne r t i.isLt h, fun j h => microStep_mix_k_of_ne r t j.isLt h,
    microStep_mix_blk r t, by omega, by omega, by omega⟩

end Sys2Proof.Machine

namespace Sys2Proof.Machine

/-- The whole fold over the twelve round numbers is its first twelve steps, where `foldl_encRound` reads the
sequences. -/
theorem foldl_encRound_of_followsRounds {S : Schedule} {blk : Block} {A B : Nat → Word}
    (h : FollowsRounds S blk A B) : (List.finRange 12).foldl (encRound S) (whiten S blk) = (A 12, B 12) := by
  obtain ⟨hA, hB, hround⟩ := h
  have hall := foldl_encRound S blk A B hA hB hround 12 le_rfl
  rwa [List.take_of_length_le (by simp)] at hall

/-! ## The obligations of 42_encrypt.md -/

/-- Settles O12: under any schedule the fold of the rounds ends where the sequences end; here it is `KSA`. -/
theorem encryptFollowsItsPseudocode : Obligations.EncryptFollowsItsPseudocode := by
  intro blk key A B h
  exact encryptWith_of_foldl (foldl_encRound_of_followsRounds h)

/-- Settles O14: `ENCRYPT` is `runCommand`, whose pair and frame have their lemmas; `BLOCK_OUT` is that pair because
`BV = 1`. -/
theorem encryptResultAndFrame : Obligations.EncryptResultAndFrame := by
  intro key blk s hb
  obtain ⟨hbusy, hbv, hsv, hopr, hseq, hrotV, hrotAmt, hrotDir, hhost⟩ := runCommand_frame hb .encrypt key blk
  have hblock := Regs.block_of_pair (runCommand_encrypt hb key blk)
  exact ⟨_, rfl, by rw [State.blockOut_of_bv hbv, hblock], hblock, hbv, hsv, hbusy, State.schedOut_of_not_sv hsv, hopr,
    hseq, hrotV, hrotAmt, hrotDir, rotY_runCommand _ _ _ _, hhost⟩

end Sys2Proof.Machine

namespace Sys2Proof.Machine

/-- The whole fold over the inverse rounds ends where the sequences stand at index 0, where `foldl_decRound` reads
them. -/
theorem foldl_decRound_of_followsInverseRounds {S : Schedule} {blk : Block} {A B : Nat → Word}
    (h : FollowsInverseRounds S blk A B) :
    (List.finRange 12).foldl (fun p i => decRound S p i.rev) (blk[0], blk[1]) = (A 0, B 0) := by
  obtain ⟨hA, hB, hround⟩ := h
  have hall := foldl_decRound S blk A B hA hB hround 12 le_rfl
  rwa [List.take_of_length_le (by simp)] at hall

/-! ## The two ciphers undo each other under any schedule (rule R146) -/

/-- A pair put into a block and read back. -/
theorem Block.pair_of_mk (p : Word × Word) : ((#v[p.1, p.2] : Block)[0], (#v[p.1, p.2] : Block)[1]) = p := rfl

/-- The inverse rounds take back the rounds, last one first, and the unwhitening takes back the whitening. The pair `p`
between the two ciphers stays a variable, so that no tactic evaluates the twelve rounds. -/
theorem decryptWith_encryptWith (S : Schedule) (blk : Block) : decryptWith S (encryptWith S blk) = blk := by
  have hrounds := foldl_reverse_undo (decRound_encRound S) (List.finRange 12) (whiten S blk)
  generalize hp : (List.finRange 12).foldl (encRound S) (whiten S blk) = p at hrounds
  rw [encryptWith_of_foldl hp]
  simp only [decryptWith, Block.pair_of_mk, hrounds, unwhiten_whiten]
  exact Block.eta blk

/-- The whitening takes back the unwhitening, and the rounds take back the inverse rounds. -/
theorem encryptWith_decryptWith (S : Schedule) (blk : Block) : encryptWith S (decryptWith S blk) = blk := by
  have hrounds := foldl_reverse_undo (encRound_decRound S) (List.finRange 12).reverse (blk[0], blk[1])
  generalize hp : (List.finRange 12).reverse.foldl (decRound S) (blk[0], blk[1]) = p at hrounds
  rw [List.reverse_reverse, ← whiten_unwhiten S p] at hrounds
  simp only [decryptWith, hp]
  rw [encryptWith_of_foldl hrounds]
  exact Block.eta blk

theorem decrypt_encrypt (blk : Block) (key : Key) : decrypt (encrypt blk key) key = blk :=
  decryptWith_encryptWith (ksa key) blk

theorem encrypt_decrypt (blk : Block) (key : Key) : encrypt (decrypt blk key) key = blk :=
  encryptWith_decryptWith (ksa key) blk

/-! ## The obligations of 43_decrypt.md -/

/-- Settles O13: under any schedule the fold of the inverse rounds ends where the sequences end; here it is `KSA`. -/
theorem decryptFollowsItsPseudocode : Obligations.DecryptFollowsItsPseudocode := by
  intro blk key A B h
  exact decryptWith_of_foldl (foldl_decRound_of_followsInverseRounds h)

/-- Settles O15: `DECRYPT` is `runCommand`, whose pair and frame have their lemmas; `BLOCK_OUT` is that pair because
`BV = 1`. -/
theorem decryptResultAndFrame : Obligations.DecryptResultAndFrame := by
  intro key blk s hb
  obtain ⟨hbusy, hbv, hsv, hopr, hseq, hrotV, hrotAmt, hrotDir, hhost⟩ := runCommand_frame hb .decrypt key blk
  have hblock := Regs.block_of_pair (runCommand_decrypt hb key blk)
  exact ⟨_, rfl, by rw [State.blockOut_of_bv hbv, hblock], hblock, hbv, hsv, hbusy, State.schedOut_of_not_sv hsv, hopr,
    hseq, hrotV, hrotAmt, hrotDir, rotY_runCommand _ _ _ _, hhost⟩

/-- Settles O16: the two ciphers under the one schedule that both take from the key. -/
theorem decryptAndEncryptAreInverse : Obligations.DecryptAndEncryptAreInverse :=
  fun blk key => ⟨decrypt_encrypt blk key, encrypt_decrypt blk key⟩

/-- Settles O17: the first line leaves the core idle with the ciphertext on `BLOCK_OUT`, so the second finds there,
without a wait, the block that it decrypts. -/
theorem roundTripByProgramLines : Obligations.RoundTripByProgramLines := by
  intro key blk rest s hs
  obtain ⟨t, ht, ⟨hbusy, hcipher, -⟩, hhost⟩ :=
    runLine_command_shows { s with host := .lineOut 0b10#2 key .out0 .out1 :: rest } .encrypt key blk
  have hread : (waitIdle { t with host := rest }).blockOut = some (encrypt blk key) := by
    rw [waitIdle_of_not_busy (s := { t with host := rest }) hbusy]
    exact hcipher
  obtain ⟨u, hu, ⟨-, hplain, -⟩, hrest⟩ := runLineOut_copy_shows hread .decrypt key
  rw [decrypt_encrypt] at hplain
  exact ⟨t, u, (step_line hs).trans ht, hcipher, (step_lineOut hhost).trans hu, hplain, hrest⟩

end Sys2Proof.Machine

namespace Sys2Proof.Machine

/-! ## Flags and priorities of a command (rules R28, R150, R153, R155) -/

/-- `BV` is the flag of every command but `EXPAND` (rule R28). -/
theorem setsBv_eq_decide (op : Op) : setsBv op = decide (op ≠ .expand) := by
  cases op <;> rfl

/-- `SV` is the flag of `EXPAND` alone (rule R28). -/
theorem not_setsBv_eq_decide (op : Op) : (!setsBv op) = decide (op = .expand) := by
  cases op <;> rfl

/-- While `BUSY = 1` an edge without reset reads no port but the rotator's inputs (rule R155). -/
theorem clockEdge_busy_congr {p q : Pins} {s : State} (hb : s.busy = true) (hp : p.noReset) (hq : q.noReset)
    (hv : p.rotV = q.rotV) (hn : p.rotAmt = q.rotAmt) (hd : p.rotDir = q.rotDir) : clockEdge p s = clockEdge q s := by
  rw [clockEdge_busy hp hb, clockEdge_busy hq hb, hv, hn, hd]

/-- A command presented while `BUSY = 1` is lost (rule R155). -/
theorem exec_decodeCommand_of_busy {s : State} (hb : s.busy = true) (op : Op) (key : Key) (blk : Block) :
    exec (decodeCommand op.code key blk) s = .next s := by
  rw [exec_decodeCommand, runCommand_of_busy hb]

/-! ## The obligations of 60_exceptions.md -/

/-- Settles O36: a command on an idle core by the flags of `runCommand_frame`; a rotator operation writes only the
levels on the inputs. -/
theorem everyOperationCompletes : Obligations.EveryOperationCompletes := by
  refine ⟨fun i s h => exec_next_of_wellFormed h s, fun op key blk s hb => ?_, fun dir v amt s =>
    ⟨_, exec_decodeRotator dir v amt s, rfl, rfl, rfl⟩⟩
  obtain ⟨hbusy, hbv, hsv, -⟩ := runCommand_frame hb op key blk
  exact ⟨_, exec_decodeCommand op key blk s, hbusy, hbv.trans (setsBv_eq_decide op),
    hsv.trans (not_setsBv_eq_decide op)⟩

/-- Settles O38: `START` makes no difference at the edge of COMPLETE by `clockEdge_busy_congr`, and that edge leaves the
core idle, so the next one can accept. -/
theorem eventPriority : Obligations.EventPriority := by
  refine ⟨fun p s hrst => ?_, fun p s hrst hb hlast => ?_⟩
  · have hedge := clockEdge_reset hrst s
    exact ⟨_, hedge, rfl, rfl, rfl, rfl, rotY_of_clockEdge hedge⟩
  · have hedge := clockEdge_last hrst hb hlast.le
    have hstart : clockEdge { p with start := false } s = clockEdge p s :=
      clockEdge_busy_congr hb hrst hrst rfl rfl rfl
    exact ⟨_, hedge, rfl, rfl, rfl, rotY_of_clockEdge hedge, hstart.trans hedge, fun op q hq =>
      ⟨_, clockEdge_accept hq (complete_busy _), rfl, rfl⟩⟩

/-- Settles O39: the edges by `clockEdge_busy_congr`; the commands by `exec_decodeCommand_of_busy`, the reserved
code by its own lemma. -/
theorem commandPortIgnoredWhileBusy : Obligations.CommandPortIgnoredWhileBusy := by
  refine ⟨fun p q s hb hp hq hv hn hd => clockEdge_busy_congr hb hp hq hv hn hd, fun key blk s hb => ?_⟩
  exact ⟨exec_decodeCommand_of_busy hb .expand key blk, exec_decodeCommand_of_busy hb .encrypt key blk,
    exec_decodeCommand_of_busy hb .decrypt key blk, exec_reservedOp3_of_busy hb key blk⟩

end Sys2Proof.Machine

namespace Sys2Proof.Machine

/-! ## Runs that end in COMPLETE or pass through reset (rules R170, R172, R181) -/

/-- COMPLETE of a command that has shown nothing sets exactly the flag of its result (rule R28). -/
theorem complete_flags {op : Op} {s : State} (hopr : s.opr = op.code) (hbv : s.bv = false) (hsv : s.sv = false) :
    (complete s).bv = setsBv op ∧ (complete s).sv = !setsBv op := by
  rw [complete_bv, complete_sv, hopr, hbv, hsv]
  cases op <;> decide

/-- A running command's edges up to its last, without reset, end in COMPLETE of a state with its operation and flags. -/
theorem runEdges_last {ps : List Pins} {q : Pins} {s : State} (hb : s.busy = true)
    (hlen : ps.length + 1 = s.seq.edgesLeft) (hps : ∀ x ∈ ps, x.noReset) (hq : q.noReset) :
    ∃ u, runEdges (ps ++ [q]) s = .next (complete u) ∧ u.opr = s.opr ∧ u.bv = s.bv ∧ u.sv = s.sv := by
  obtain ⟨u, hu, hbusy, hbv, hsv, hopr, -, -, hleft, -⟩ := runEdges_busy ps s hb hps (by omega)
  refine ⟨driveRotator q.rotDir q.rotV q.rotAmt u, ?_, hopr, hbv, hsv⟩
  rw [runEdges_append_of_next hu, runEdges_cons_of_next (clockEdge_last hq hbusy (by omega)), runEdges]

/-- A reset edge and any wait after it leave the core idle and without a result, whatever ran before. -/
theorem runEdges_reset {r : Pins} {qs : List Pins} (hr : r.rst = true) (hqs : ∀ q ∈ qs, q.quiet) (s : State) :
    ∃ t, runEdges (r :: qs) s = .next t ∧ t.busy = false ∧ t.bv = false ∧ t.sv = false := by
  obtain ⟨d, v, n, hwait⟩ := runEdges_quiet qs
    (s := resetEdge (driveRotator r.rotDir r.rotV r.rotAmt s)) rfl hqs
  exact ⟨_, (runEdges_cons_of_next (clockEdge_reset hr s) qs).trans hwait, rfl, rfl, rfl⟩

/-! ## The obligations of 70_reset_and_hazards.md -/

/-- Settles O18: `EXPAND` leaves the core idle, and a command on an idle core shows the function of its own operands
under its own flag. -/
theorem expandDoesNotFeedLaterCommand : Obligations.ExpandDoesNotFeedLaterCommand := by
  intro key1 key2 blk1 blk2 s hb
  obtain ⟨t, ht, ⟨hidle, -⟩, -⟩ := exec_command_shows hb .expand key1 blk1
  obtain ⟨u, hu, ⟨-, hcipher, -, husv⟩, -⟩ := exec_command_shows hidle .encrypt key2 blk2
  obtain ⟨v, hv, ⟨-, hplain, -, hvsv⟩, -⟩ := exec_command_shows hidle .decrypt key2 blk2
  exact ⟨t, u, v, ht, hu, hcipher, State.schedOut_of_not_sv husv, hv, hplain, State.schedOut_of_not_sv hvsv⟩

/-- Settles O43: the edges before reset all have a next state by `runEdges_before_complete`; from any such state
`runEdges_reset` ends idle, where each command runs on its own operands. -/
theorem resetAbandonsCommand : Obligations.ResetAbandonsCommand := by
  intro op p r ps qs s hp hb hlen hps hr hqs
  obtain ⟨u, hu, -⟩ := runEdges_before_complete hp hb hps hlen
  obtain ⟨t, ht, hidle, hbv, hsv⟩ := runEdges_reset hr hqs u
  refine ⟨t, (runEdges_append_of_next hu _).trans ht, hidle, hbv, hsv, State.blockOut_of_not_bv hbv,
    State.schedOut_of_not_sv hsv, fun key blk => ?_⟩
  obtain ⟨e, he, ⟨-, hsched, -⟩, -⟩ := exec_command_shows hidle .expand key blk
  obtain ⟨c, hc, ⟨-, hcipher, -⟩, -⟩ := exec_command_shows hidle .encrypt key blk
  obtain ⟨d, hd, ⟨-, hplain, -⟩, -⟩ := exec_command_shows hidle .decrypt key blk
  exact ⟨⟨e, he, hsched⟩, ⟨c, hc, hcipher⟩, d, hd, hplain⟩

/-- Settles O44: the invariant gives at least one edge, both flags 0 and an operation's code in `OPR`; the last edge is
COMPLETE by `runEdges_last`. -/
theorem runningCommandCompletes : Obligations.RunningCommandCompletes := by
  rintro ps s ⟨⟨-, hflags⟩, -, hseq⟩ hb hlen hps
  obtain ⟨hbv, hsv⟩ := hflags hb
  obtain ⟨op, hopr, -, hleft, -⟩ := hseq hb
  obtain rfl | ⟨init, q, rfl⟩ := ps.eq_nil_or_concat
  · rw [List.length_nil] at hlen
    omega
  · rw [List.concat_eq_append] at hlen hps ⊢
    obtain ⟨hinit, hq⟩ := List.forall_mem_append.mp hps
    obtain ⟨u, hu, huopr, hubv, husv⟩ := runEdges_last hb (by simpa using hlen) hinit (hq q (by simp))
    obtain ⟨hBv, hSv⟩ := complete_flags (huopr.trans hopr) (hubv.trans hbv) (husv.trans hsv)
    exact ⟨complete u, hu, complete_busy u, by rw [hBv, hSv, Bool.not_eq_false'], complete_seq u⟩

/-- Settles O41: the flags and the sequencer as `State.reset` holds them, the result ports by their flags. -/
theorem stateAfterReset : Obligations.StateAfterReset :=
  ⟨rfl, rfl, rfl, rfl, State.blockOut_of_not_bv rfl, State.schedOut_of_not_sv rfl, rfl⟩

/-- Settles O42 (`resetEdge` itself names the model's operation): the edge is `resetEdge` after the rotator's inputs have
taken its levels. -/
theorem resetEdge_spec : Obligations.ResetEdge := by
  intro p s hrst
  have hedge := clockEdge_reset hrst s
  exact ⟨_, hedge, rfl, rfl, rfl, rfl, State.blockOut_of_not_bv rfl, State.schedOut_of_not_sv rfl,
    rotY_of_clockEdge hedge, rfl⟩

end Sys2Proof.Machine
